-- ==== Sys2Proof/Word.lean ====
section
/-! DEFINITION. The sizes of the things the engine handles (spec 00_scope.md R5, R7).
All values are unsigned; a bit vector stands for what the spec treats as bits, a vector for a fixed
number of like things. -/

namespace Sys2Proof

/-- One byte, bit 7 the most significant (R7). -/
abbrev Byte := BitVec 8

/-- One datapath word, `WORD_BITS = 32` (R5). -/
abbrev Word := BitVec 32

/-- One command word, `CW_BITS = 10` (R5, R48). -/
abbrev CommandWord := BitVec 10

/-- One block, `BLOCK_BYTES = 64` bytes, the earliest first (R5, R35). -/
abbrev Block := Vector Byte 64

/-- A chaining value: `STATE_WORDS = 8` words (R5, R16). -/
abbrev Chain := Vector Word 8

/-- A message schedule: `SCHED_WORDS = 64` words (R5, R18). -/
abbrev Schedule := Vector Word 64

/-- A digest: `DIGEST_BYTES = 32` bytes (R5, R27). -/
abbrev Digest := Vector Byte 32

end Sys2Proof
end

