-- ==== Sys2Proof/Machine/Operands.lean ====
section
/-! DEFINITION. The word operations of the datapath (spec 00_scope.md R8 to R11, 43_compression.md
R96) and the byte-order conversions (R12, R36). The one operand form of the command set, `imm8`, is
used as is (R50): it is the byte `d` of `Instr.absorb8` and needs no operation. -/

namespace Sys2Proof.Machine

open Sys2Proof

/-- `add32` (R8): addition modulo 2^32; no flag, no fault. -/
def add32 (x y : Word) : Word := x + y

/-- `rotr(x, n)` for `0 < n < 32`, by the formula of R9. No other amount is ever used (log 11). -/
def rotr (x : Word) (n : Nat) : Word := (x >>> n) ||| (x <<< (32 - n))

/-- `shr(x, n)` for `0 < n < 32` (R10): logical shift right. No other amount is ever used (log 11). -/
def shr (x : Word) (n : Nat) : Word := x >>> n

/-- `be32` (R12): a word from four bytes, the first the most significant. -/
def be32 (b0 b1 b2 b3 : Byte) : Word := b0 ++ b1 ++ b2 ++ b3

/-- `tobe32` (R12): the four bytes of a word, the most significant first. -/
def tobe32 (w : Word) : Vector Byte 4 :=
  #v[w.extractLsb' 24 8, w.extractLsb' 16 8, w.extractLsb' 8 8, w.extractLsb' 0 8]

/-- `tobe64` (R12): the eight bytes of a 64-bit value, the most significant first. -/
def tobe64 (v : BitVec 64) : Vector Byte 8 :=
  #v[v.extractLsb' 56 8, v.extractLsb' 48 8, v.extractLsb' 40 8, v.extractLsb' 32 8,
     v.extractLsb' 24 8, v.extractLsb' 16 8, v.extractLsb' 8 8, v.extractLsb' 0 8]

end Sys2Proof.Machine
end

