-- ==== Sys2Proof/Syntax.lean ====
section
/-! DEFINITION. The command set (spec 30_encoding.md R49) and the one command format C10 (R48).
The opcode table has three rows; `Instr` has one constructor for each. -/

namespace Sys2Proof

/-- Format C10 (R48): the two fields of a command word. There are no other fields and no second word. -/
structure C10 where
  /-- `CW[9:8]`, the command's opcode (R49). -/
  op   : BitVec 2
  /-- `CW[7:0]`, the one operand, an unsigned byte used as is (R50). -/
  imm8 : Byte
deriving DecidableEq, Repr

/-- The three commands (R49, R51). -/
inductive Instr where
  /-- `NEW`: start a new message (R62). -/
  | new
  /-- `ABSORB8 d`: absorb the message byte `d` (R63). -/
  | absorb8 (d : Byte)
  /-- `FINALIZE`: pad, compress the last blocks, present the digest (R64). -/
  | finalize
deriving DecidableEq, Repr

end Sys2Proof
end

