-- ==== Sys2Proof/WellFormed.lean ====
section
/-! DEFINITION. Which C10 words are defined (spec 30_encoding.md R50, R52). A value of `Instr` is
always well formed, because its type holds exactly the operands the format gives each command; what
can be ill formed is a word: each class of reserved words of R52 is one named check here. -/

namespace Sys2Proof

/-- `op = 0b11` is reserved (R49, R52). -/
def C10.opDefined (c : C10) : Bool := c.op != 3#2

/-- For `NEW` the operand must be zero (R50, R52). -/
def C10.newImmZero (c : C10) : Bool := c.op != 0#2 || c.imm8 == 0#8

/-- For `FINALIZE` the operand must be zero (R50, R52). -/
def C10.finalizeImmZero (c : C10) : Bool := c.op != 2#2 || c.imm8 == 0#8

/-- A word is one of the 258 defined ones (R51, R52). -/
def C10.wf (c : C10) : Bool := c.opDefined && c.newImmZero && c.finalizeImmZero

end Sys2Proof
end

