-- ==== Sys2Proof/Decode.lean ====
section
/-! DEFINITION. Decoding and encoding of command words (spec 30_encoding.md R48 to R55).
Decoding is total and stateless (R55): every 10-bit word is a command or is rejected under the name
of its class of reserved words (R52). -/

namespace Sys2Proof

/-- The three classes of reserved words (R52). A reserved word raises `IllegalCommand` when it is
executed (R104); the class is not recorded anywhere. -/
inductive Reserved where
  /-- `op = 0b11`: `0x300 .. 0x3FF`. -/
  | opcode
  /-- `op = 0b00` with a nonzero operand: `0x001 .. 0x0FF`. -/
  | newOperand
  /-- `op = 0b10` with a nonzero operand: `0x201 .. 0x2FF`. -/
  | finalizeOperand
deriving DecidableEq, Repr

/-- The two fields of a command word: `op = CW[9:8]`, `imm8 = CW[7:0]` (R48). -/
def fields (cw : CommandWord) : C10 :=
  { op := cw.extractLsb' 8 2, imm8 := cw.extractLsb' 0 8 }

/-- The command word of two fields, `op` the more significant part (R48, R7). -/
def pack (c : C10) : CommandWord := c.op ++ c.imm8

/-- The command two fields name, or the class they are reserved under (R49, R50, R52, R55). -/
def decodeFields (c : C10) : Except Reserved Instr :=
  if !c.opDefined then .error .opcode
  else if !c.newImmZero then .error .newOperand
  else if !c.finalizeImmZero then .error .finalizeOperand
  else if c.op == 0#2 then .ok .new
  else if c.op == 1#2 then .ok (.absorb8 c.imm8)
  else .ok .finalize

/-- `decode(CW)` (R55). -/
def decode (cw : CommandWord) : Except Reserved Instr := decodeFields (fields cw)

/-- The fields of a command, from the opcode map (R51). -/
def toFields : Instr → C10
  | .new       => { op := 0b00#2, imm8 := 0x00#8 }
  | .absorb8 d => { op := 0b01#2, imm8 := d }
  | .finalize  => { op := 0b10#2, imm8 := 0x00#8 }

/-- `encode(c)` (R55): the one word of a command. -/
def encode (i : Instr) : CommandWord := pack (toFields i)

/-- The command word that bits numbered as `spec/opcode_table.json` numbers them make up: the table's
bit 0 is `CW[0]`, and every bit above `CW[9]` is 0. A larger number is no command word (R48). -/
def tableWord (w : Nat) : Option CommandWord :=
  if w < 1024 then some (BitVec.ofNat 10 w) else none

/-- What the decoder reads from a row's bits; `none` where it rejects. A command word is one 10-bit
unit, not a sequence of bytes (R36, R54), so `nbits`, the table's whole bytes, says nothing more. -/
def decodeTableWord (_nbits w : Nat) : Option Instr :=
  match tableWord w with
  | none => none
  | some cw =>
    match decode cw with
    | .ok i => some i
    | .error _ => none

end Sys2Proof
end

