-- ==== Sys2Proof/Machine/State.lean ====
section
/-! DEFINITION. The state of one engine instance (spec 10_state.md R15 to R32), plain data.
The elements of R15 that change are the fields `h` to `j`; the two ROMs are `Config.k` and
`Config.iv`. The last two fields are the model's own, standing for the command port (R6, R32, R56):
the host's inputs not yet taken, and the response of the step just made. -/

namespace Sys2Proof.Machine

open Sys2Proof

/-- The phase flag's two states (R24): accumulating and finalized. -/
inductive Phase where
  | acc
  | fin
deriving DecidableEq, Repr

/-- The two synchronous faults of the engine (R102). They are the hardware's own, part of a next
state; the model's stops are `Fault` below. -/
inductive FaultCode where
  /-- Code 1: `ABSORB8` while `PHASE = FIN` (R103). -/
  | usageFault
  /-- Code 2: a reserved word, in either phase (R104). -/
  | illegalCommand
deriving DecidableEq, Repr

/-- The response of a command (R56): an abstract value with no bit encoding (D23). -/
inductive Response where
  | ok
  | digest (d : Digest)
  | fault (c : FaultCode)
deriving DecidableEq, Repr

/-- What the host can do to the engine that changes it (R125): give a command word, or assert reset,
which falls between commands (R119). Reading `STATUS` and `DIGEST` changes nothing (R39) and is a
function of the state (Machine/Flags.lean, Machine/Digest.lean). -/
inductive HostInput where
  | command (cw : CommandWord)
  | reset
deriving DecidableEq, Repr

/-- The eight working variables `a .. h` (R17). The variable `h` is not the register file `H`. -/
structure Working where
  a : Word
  b : Word
  c : Word
  d : Word
  e : Word
  f : Word
  g : Word
  h : Word
deriving DecidableEq, Repr

/-- A byte store: the bytes it holds, by offset, offsets strictly rising. An offset that is not listed
holds no value (R30, log 4). The word scratch and the indices say the same with `none`: no value is the
spec's own content of scratch between commands (R30) and after reset (R31). -/
abbrev Store := List Host.Cell

/-- The names of the two byte stores (R33). -/
inductive StoreName where
  | buf
  | pbuf
deriving DecidableEq, Repr

/-- Why the model stops where the hardware would go on. -/
inductive Fault where
  /-- Raised by `execAbsorb8` and `execFinalize` when they would read a byte of a store that holds no
  value, which R30 calls a model error. Safe: the model stops. No state with live bytes in `BUF`
  (`State.Inv`, kept by every step and true after reset) reaches it. -/
  | noValue (store : StoreName)
deriving DecidableEq, Repr

/-- Why the model gives a command no meaning. -/
inductive Refusal where
  /-- Raised by an arm of `exec` for a command without a meaning. Safe: the model stops. No arm of this
  model raises it. -/
  | notModelled (mnemonic : String)
deriving DecidableEq, Repr

/-- The state of one engine instance. -/
structure State where
  /-- Chaining registers `H[0..7]`, 8 x 32 bits (R16). -/
  h : Chain
  /-- Byte counter `LEN`, 64 bits, wrapping (R23). -/
  len : BitVec 64
  /-- Block buffer `BUF[0..63]`, 64 bytes (R21); the stale bytes hold no value (R30). -/
  buf : Store
  /-- Phase flag `PHASE`, 1 bit (R24). -/
  phase : Phase
  /-- Fault record, `ERR`, 1 bit (R25). -/
  err : Bool
  /-- Fault record, `CAUSE`, 2 bits: the code of the first fault (R25). -/
  cause : BitVec 2
  /-- Working variables `a .. h`, 8 x 32 bits (R17); scratch, no value between commands (R30). -/
  wv : Option Working
  /-- Message schedule `W[0..63]`, 64 x 32 bits (R18); scratch, no value between commands (R30). -/
  w : Option Schedule
  /-- Padding buffer `PBUF[0..127]`, 128 bytes (R22); scratch, no value between commands (R30). -/
  pbuf : Store
  /-- Round and schedule index `t`, 0..63 (R26); scratch, no value between commands (R30). -/
  t : Option (Fin 64)
  /-- Final-block index `j`, 0..1 (R26); scratch, no value between commands (R30). -/
  j : Option (Fin 2)
  /-- MODEL'S OWN (log 1): the host's inputs that the engine has not taken yet, the next one first. -/
  pending : List HostInput
  /-- MODEL'S OWN (log 2): the response produced by the last step, `none` if it produced none. -/
  response : Option Response
deriving DecidableEq, Repr

/-- The state right after reset (R31, R118). What R31 calls unspecified holds no value (R30, log 4); the
host has presented nothing (log 1). -/
def State.reset : State :=
  { h := Config.iv
    len := 0#64
    buf := []
    phase := .acc
    err := false
    cause := 0#2
    wv := none
    w := none
    pbuf := []
    t := none
    j := none
    pending := []
    response := none }

end Sys2Proof.Machine
end

