-- ==== Sys2Proof/Machine/Flags.lean ====
section
/-! DEFINITION. The only flags of the machine, `PHASE`, `ERR` and `CAUSE` (spec 10_state.md R24, R25),
and the `STATUS` output made of them (R28). No operation sets a carry, zero, overflow or sign flag:
there are none (R25, R96). -/

namespace Sys2Proof.Machine

open Sys2Proof

/-- The bit of a phase: `ACC = 0`, `FIN = 1` (R24). -/
def phaseBit : Phase → BitVec 1
  | .acc => 0#1
  | .fin => 1#1

/-- The code of a fault (R102). -/
def faultCode : FaultCode → BitVec 2
  | .usageFault     => 1#2
  | .illegalCommand => 2#2

/-- The fault record's part of fault entry (R109): the first fault since reset sets `CAUSE`, every fault
sets `ERR`. -/
def recordFault (c : FaultCode) (s : State) : State :=
  { s with cause := if s.err then s.cause else faultCode c, err := true }

/-- The `STATUS` output (R28): `STATUS[0] = PHASE`, `STATUS[1] = ERR`, `STATUS[3:2] = CAUSE`. The host
may read it between any two commands and reading changes nothing (R29, R39). -/
def status (s : State) : BitVec 4 := s.cause ++ BitVec.ofBool s.err ++ phaseBit s.phase

end Sys2Proof.Machine
end

