-- ==== Sys2Proof/Machine/Ops.lean ====
section
/-! DEFINITION. The named operations over the byte stores and the registers: `MemRead` and `MemWrite`
(spec 20_memory.md R37), `FILL` (10_state.md R23), responding (30_encoding.md R56), fault entry
(60_exceptions.md R109), loading the initial values (40_commands.md R62), scratch and stale bytes ceasing
to hold a value (10_state.md R30), reset (70 R118) and taking the host's next input. There is no return from a fault (R110). -/

namespace Sys2Proof.Machine

open Sys2Proof

/-! ### The byte stores -/

/-- The byte a store holds at an offset; `none` where it holds no value (R30). -/
def Store.get? : Store → Nat → Option Byte
  | [], _ => none
  | (b, v) :: rest, a => if b = a then some v else Store.get? rest a

/-- `S[a] <- v`, keeping the offsets strictly rising. -/
def Store.set : Store → Nat → Byte → Store
  | [], a, v => [(a, v)]
  | (b, w) :: rest, a, v =>
    if a < b then (a, v) :: (b, w) :: rest
    else if b = a then (a, v) :: rest
    else (b, w) :: Store.set rest a v

/-- The canonical form from offset `lo` on: offsets strictly rising and below `size`. No byte equals
what an unlisted offset reads as, because that is no value at all. -/
def Store.wfFrom (size : Nat) : Nat → Store → Bool
  | _, [] => true
  | lo, (a, _) :: rest => lo ≤ a && a < size && Store.wfFrom size (a + 1) rest

/-- The canonical form of a store of `size` bytes. -/
def Store.wf (size : Nat) (S : Store) : Bool := Store.wfFrom size 0 S

/-- `MemRead(S, off, n)` (R37): `n` consecutive bytes, lowest offset first. It answers only if each of
them holds a value. -/
def memRead (S : Store) (off : Nat) : (n : Nat) → Option (Vector Byte n)
  | 0 => some #v[]
  | n + 1 =>
    match memRead S off n, S.get? (off + n) with
    | some bytes, some b => some (bytes.push b)
    | _, _ => none

/-- `MemWrite(S, off, |v|, v)` (R37): the bytes of `v`, lowest offset first. -/
def memWrite (S : Store) (off : Nat) : List Byte → Store
  | [] => S
  | b :: rest => memWrite (S.set off b) (off + 1) rest

/-! ### The byte counter and the block buffer -/

/-- `FILL = LEN mod 64 = LEN[5:0]` (R23): the number of live bytes in `BUF`, and the offset the next
byte goes to. It is a view of `LEN`, not a register. -/
def fill (s : State) : Nat := s.len.toNat % 64

/-- Store and count one message byte: `BUF[FILL] <- d` and `LEN <- (LEN + 1) mod 2^64` (R63). -/
def putByte (d : Byte) (s : State) : State :=
  { s with buf := memWrite s.buf (fill s) [d], len := s.len + 1#64 }

/-! ### Scratch and stale bytes cease to hold a value (R30, log 6)

The hardware clears nothing (R122); the model no longer knows what is there. -/

/-- `FILL` is 0 again, so no byte of `BUF` is live (R21, R62, R63): those left there are stale. -/
def forgetBuf (s : State) : State := { s with buf := [] }

/-- A `COMPRESS` has ended: nothing of `W`, `a .. h` and `t` survives it (R17, R26, R85). -/
def forgetBlockScratch (s : State) : State := { s with wv := none, w := none, t := none }

/-- A `FINALIZE` has ended: `PBUF` and `j` have no meaning after it (R26, R79). -/
def forgetPadding (s : State) : State := { s with pbuf := [], j := none }

/-! ### Starting, responding, faulting -/

/-- `H <- IV`, `LEN <- 0`, `PHASE <- ACC`: what reset and `NEW` have in common (R31, R62). -/
def startMessage (s : State) : State :=
  { s with h := Config.iv, len := 0#64, phase := .acc }

/-- `respond r` (R13, R56): the command's one response. -/
def respond (r : Response) (s : State) : State := { s with response := some r }

/-- FAULT ENTRY, `raise F(code)` (R109): the fault record and the response, and nothing else. Nothing is
saved, no mode changes and control goes nowhere; the engine takes the next command as usual (R110). -/
def raise (c : FaultCode) (s : State) : State := respond (.fault c) (recordFault c s)

/-- What a reserved word does when it is executed: it raises `IllegalCommand`, whatever its class and
whatever the phase (R52, R104, R108). -/
def executeReserved (_ : Reserved) (s : State) : State := raise .illegalCommand s

/-! ### The host's inputs -/

/-- Reset applied to a state (R118): every element takes its value of R31, and there is no response
(R125). The host's later inputs are still to come (log 7). -/
def applyReset (s : State) : State := { State.reset with pending := s.pending }

/-- A step in which the host presents nothing: every element holds its value (R117), and no response is
produced (log 3). -/
def idle (s : State) : State := { s with response := none }

/-- Take the host's next input: the input, if any, and the state without it (R45: a word is forgotten
once presented). -/
def takeInput (s : State) : Option HostInput × State :=
  match s.pending with
  | [] => (none, s)
  | x :: rest => (some x, { s with pending := rest })

/-- Let the host present one more input, ahead of those still pending. -/
def presentNext (x : HostInput) (s : State) : State := { s with pending := x :: s.pending }

end Sys2Proof.Machine
end

