-- ==== Sys2Proof/Machine/Digest.lean ====
section
/-! DEFINITION. Digest serialisation (spec 44_digest.md R99) and the `DIGEST` output (10_state.md R27). -/

namespace Sys2Proof.Machine

open Sys2Proof

/-- `SERIALIZE(X)` (R99): the eight words big-endian, `X[0]` first. -/
def serialize (X : Chain) : Digest :=
  tobe32 X[0] ++ tobe32 X[1] ++ tobe32 X[2] ++ tobe32 X[3]
    ++ tobe32 X[4] ++ tobe32 X[5] ++ tobe32 X[6] ++ tobe32 X[7]

/-- The `DIGEST` output is valid exactly while `PHASE = FIN` (R27). -/
def digestValid (s : State) : Bool := s.phase == .fin

/-- A host's read of `DIGEST` (R27, R29): `SERIALIZE(H)` while `PHASE = FIN`; while `PHASE = ACC` the
output has no architectural value and the model offers none (D22, log 10). Reading changes nothing. -/
def readDigest (s : State) : Option Digest :=
  if digestValid s then some (serialize s.h) else none

end Sys2Proof.Machine
end

