-- ==== Sys2Proof/Machine/Schedule.lean ====
section
/-! DEFINITION. The message-schedule expander (spec 42_schedule.md R81 to R86), as functions of the
block and of the 64 words of `W`. -/

namespace Sys2Proof.Machine

open Sys2Proof

/-- `ssig0` (R82): two rotations and one logical shift. -/
def ssig0 (x : Word) : Word := rotr x 7 ^^^ rotr x 18 ^^^ shr x 3

/-- `ssig1` (R83): two rotations and one logical shift. -/
def ssig1 (x : Word) : Word := rotr x 17 ^^^ rotr x 19 ^^^ shr x 10

/-- One word of `LOADW` (R81): `W[j] <- be32(B[4j], B[4j+1], B[4j+2], B[4j+3])`. -/
def loadWord (B : Block) (W : Schedule) (j : Fin 16) : Schedule :=
  W.set j.val (be32 B[4 * j.val] B[4 * j.val + 1] B[4 * j.val + 2] B[4 * j.val + 3])

/-- `LOADW(B)` (R81): `W[0..15]` from the block; `W[16..63]` are not touched. -/
def loadw (B : Block) (W : Schedule) : Schedule := (List.finRange 16).foldl (loadWord B) W

/-- One step of `EXPAND` (R84), for `i = n + 16`:
`W[i] <- W[i-16] + ssig0(W[i-15]) + W[i-7] + ssig1(W[i-2])`. -/
def expandWord (W : Schedule) (n : Fin 48) : Schedule :=
  W.set (n.val + 16)
    (add32 (add32 (add32 W[n.val] (ssig0 W[n.val + 1])) W[n.val + 9]) (ssig1 W[n.val + 14]))

/-- `EXPAND` (R84): `W[16..63]`, the index ascending; `W[0..15]` are not changed. -/
def expand (W : Schedule) : Schedule := (List.finRange 48).foldl expandWord W

/-- `SCHED` as the engine runs it (R85): `LOADW(B)` then `EXPAND` on the words `W` holds. -/
def scheduleInto (B : Block) (W : Schedule) : Schedule := expand (loadw B W)

/-- `SCHED(B)` as a pure function of the block (R85, R86). It starts from a schedule of zeros, every
word of which it writes before reading. -/
def sched (B : Block) : Schedule := scheduleInto B (Vector.replicate 64 0#32)

end Sys2Proof.Machine
end

