-- ==== Sys2Proof/Machine/Compress.lean ====
section
/-! DEFINITION. The compression engine (spec 43_compression.md R87 to R98): the four round functions,
the round, and `COMPRESS` both as a pure function and as the engine runs it on its own registers. -/

namespace Sys2Proof.Machine

open Sys2Proof

/-- `bsig1` (R87): three rotations. -/
def bsig1 (x : Word) : Word := rotr x 6 ^^^ rotr x 11 ^^^ rotr x 25

/-- `ch` (R88), read "choose". -/
def ch (x y z : Word) : Word := (x &&& y) ^^^ (~~~x &&& z)

/-- `bsig0` (R89): three rotations. -/
def bsig0 (x : Word) : Word := rotr x 2 ^^^ rotr x 13 ^^^ rotr x 22

/-- `maj` (R90), read "majority". -/
def maj (x y z : Word) : Word := (x &&& y) ^^^ (x &&& z) ^^^ (y &&& z)

/-- `WVINIT(X)` (R91). -/
def wvInit (X : Chain) : Working :=
  { a := X[0], b := X[1], c := X[2], d := X[3], e := X[4], f := X[5], g := X[6], h := X[7] }

/-- `temp1` of a round (R92), from the values before it. -/
def temp1 (k w : Word) (v : Working) : Word :=
  add32 (add32 (add32 (add32 v.h (bsig1 v.e)) (ch v.e v.f v.g)) k) w

/-- `temp2` of a round (R92), from the values before it. -/
def temp2 (v : Working) : Word := add32 (bsig0 v.a) (maj v.a v.b v.c)

/-- One round with constant `k` and schedule word `w` (R92): the eight assignments in parallel. -/
def roundWith (k w : Word) (v : Working) : Working :=
  { a := add32 (temp1 k w v) (temp2 v)
    b := v.a
    c := v.b
    d := v.c
    e := add32 v.d (temp1 k w v)
    f := v.e
    g := v.f
    h := v.g }

/-- `ROUND(t)` (R92, R98): the same `t` selects `K[t]` and `W[t]`. -/
def roundAt (W : Schedule) (v : Working) (t : Fin 64) : Working := roundWith Config.k[t] W[t] v

/-- The 64 rounds, `t` ascending (R94). -/
def rounds (W : Schedule) (v : Working) : Working := (List.finRange 64).foldl (roundAt W) v

/-- `ADDBACK(X)` (R93): eight independent additions. -/
def addback (X : Chain) (v : Working) : Chain :=
  #v[add32 X[0] v.a, add32 X[1] v.b, add32 X[2] v.c, add32 X[3] v.d,
     add32 X[4] v.e, add32 X[5] v.f, add32 X[6] v.g, add32 X[7] v.h]

/-- `COMPRESS(X, B)` as a pure function (R94). -/
def compress (X : Chain) (B : Block) : Chain := addback X (rounds (sched B) (wvInit X))

/-- The cells of `W` that a `COMPRESS` starts on: free values where `W` holds none (R30, log 5). -/
def scheduleCells (s : State) : Schedule :=
  s.w.getD (Vector.ofFn fun i => Config.unspecifiedWord i.val)

/-- The work of `H[0..7] <- COMPRESS(H[0..7], B)` on the engine's registers (R94): the schedule is made in
`W`, the rounds run in `a .. h` up to `t = 63`, and the result is added into `H`. -/
def runBlock (B : Block) (s : State) : State :=
  { s with
    w := some (scheduleInto B (scheduleCells s))
    wv := some (rounds (scheduleInto B (scheduleCells s)) (wvInit s.h))
    t := some 63
    h := addback s.h (rounds (scheduleInto B (scheduleCells s)) (wvInit s.h)) }

/-- `H[0..7] <- COMPRESS(H[0..7], B)` (R94): the work, of which nothing is left behind but scratch that
holds no value (R30). -/
def compressBlock (B : Block) (s : State) : State := forgetBlockScratch (runBlock B s)

end Sys2Proof.Machine
end

