-- ==== Sys2Proof/Machine/Padding.lean ====
section
/-! DEFINITION. The padding-buffer builder (spec 41_padding.md R73 to R79), and the final blocks that
`FINALIZE` compresses out of `PBUF` (40_commands.md R64). -/

namespace Sys2Proof.Machine

open Sys2Proof

/-- `total = ceil((r + 9) / 64) * 64` (R74). -/
def padTotal (r : Nat) : Nat := (r + 9 + 63) / 64 * 64

/-- The zero fill `k = total - r - 9` (R75). -/
def padZeros (r : Nat) : Nat := padTotal r - r - 9

/-- The length field `tobe64((8 * L) mod 2^64)` (R76). -/
def padLength (L : Nat) : Vector Byte 8 := tobe64 (BitVec.ofNat 64 (8 * L))

/-- `PADBUILD(R, L)` (R73): the bytes, `0x80`, the zero fill, the length field. -/
def padBuild (R : List Byte) (L : Nat) : List Byte :=
  R ++ [0x80#8] ++ List.replicate (padZeros R.length) 0x00#8 ++ (padLength L).toList

/-- Compress final block `j` out of `PBUF[64j .. 64j+63]` (R64, R77). -/
def finalBlock (j : Nat) (s : State) : Option State :=
  match memRead s.pbuf (64 * j) 64 with
  | none => none
  | some B => some { compressBlock B s with j := some (Fin.ofNat 2 j) }

/-- Compress the final blocks `0 .. n-1` in order (R64, R95). -/
def finalBlocks : Nat → State → Option State
  | 0, s => some s
  | n + 1, s =>
    match finalBlocks n s with
    | none => none
    | some s' => finalBlock n s'

/-- `MemWrite(PBUF, 0, |P|, P)` (R64, R77). -/
def loadPadding (P : List Byte) (s : State) : State := { s with pbuf := memWrite s.pbuf 0 P }

end Sys2Proof.Machine
end

