-- ==== Sys2Proof/Machine/Hasher.lean ====
section
/-! DEFINITION. The meanings of the three commands (spec 40_commands.md R61 to R65). Each is one
indivisible step and gives one response. -/

namespace Sys2Proof.Machine

open Sys2Proof

/-- `NEW` (R62): `H <- IV`, `LEN <- 0`, `PHASE <- ACC`, response `OK`, in either phase. The fault record,
the stores and scratch are not written; the bytes of `BUF` become stale (R30). -/
def execNew (s : State) : Host.Outcome State Fault Refusal :=
  .next (respond .ok (forgetBuf (startMessage s)))

/-- `ABSORB8 d` (R63). In `FIN` it raises `UsageFault` and the byte is dropped (R103). In `ACC` the byte is
stored and counted, and if it is the 64th of a block the block is compressed at once and its bytes in
`BUF` become stale. -/
def execAbsorb8 (d : Byte) (s : State) : Host.Outcome State Fault Refusal :=
  match s.phase with
  | .fin => .next (raise .usageFault s)
  | .acc =>
    if fill s = 63 then
      match memRead (putByte d s).buf 0 64 with
      | none => .fault (.noValue .buf)
      | some B => .next (respond .ok (forgetBuf (compressBlock B (putByte d s))))
    else .next (respond .ok (putByte d s))

/-- `FINALIZE` (R64). In `FIN` it presents the digest already held and changes nothing. In `ACC` it pads
the tail into `PBUF`, compresses the one or two final blocks, and presents the digest. -/
def execFinalize (s : State) : Host.Outcome State Fault Refusal :=
  match s.phase with
  | .fin => .next (respond (.digest (serialize s.h)) s)
  | .acc =>
    match memRead s.buf 0 (fill s) with
    | none => .fault (.noValue .buf)
    | some R =>
      match finalBlocks ((padBuild R.toList s.len.toNat).length / 64)
          (loadPadding (padBuild R.toList s.len.toNat) s) with
      | none => .fault (.noValue .pbuf)
      | some s' => .next (respond (.digest (serialize s'.h)) (forgetPadding { s' with phase := .fin }))

end Sys2Proof.Machine
end

