-- ==== Sys2Proof/Machine/Dispatch.lean ====
section
/-! DEFINITION. One arm per command: the meaning of a decoded command (spec 40_commands.md R65). -/

namespace Sys2Proof.Machine

open Sys2Proof

def exec (i : Instr) (s : State) : Host.Outcome State Fault Refusal :=
  match i with
  | .new => Sys2Proof.Machine.execNew s
  | .absorb8 d => Sys2Proof.Machine.execAbsorb8 d s
  | .finalize => Sys2Proof.Machine.execFinalize s

end Sys2Proof.Machine
end

