-- ==== Sys2Proof/Machine/Step.lean ====
section
/-! DEFINITION. One step of the machine (spec 00_scope.md R6, 40_commands.md R61): the complete
execution of one command word taken from the host, or a reset, which falls between commands (R119), or
nothing if the host presents nothing. -/

namespace Sys2Proof.Machine

open Sys2Proof

/-- Execute a 10-bit word (R55, R65): decode it first, then run the command or raise `IllegalCommand`
(R108). -/
def execWord (cw : CommandWord) (s : State) : Host.Outcome State Fault Refusal :=
  match decode cw with
  | .ok i => exec i s
  | .error r => .next (executeReserved r s)

/-- One step. -/
def step (s : State) : Host.Outcome State Fault Refusal :=
  match takeInput s with
  | (none, s') => .next (idle s')
  | (some .reset, s') => .next (applyReset s')
  | (some (.command cw), s') => execWord cw s'

/-- The state in which the host presents, as its next input, the command word with the table's bits `w`
(log 8); nothing else changes. A number that is no command word cannot be presented. -/
def State.withFetchWord (s : State) (_nbits w : Nat) : State :=
  match tableWord w with
  | none => s
  | some cw => presentNext (.command cw) s

end Sys2Proof.Machine
end

