-- ==== Sys2Proof/Machine/Assembler.lean ====
section
/-! DEFINITION. The assembler syntax and the pseudo-instructions (spec 30_encoding.md R57 to R60).
They are notation: a line of text becomes the commands it stands for, and those become words by
`encode`. A line is a list of characters without its line end; characters a rule does not allow make
the line no line at all (`none`). Choices the rules leave open are in log 13. -/

namespace Sys2Proof.Machine

open Sys2Proof

/-! ### Pseudo-instructions -/

/-- `absorb <bytes>` (R58): one `absorb8` per byte, in order; nothing for the empty sequence. -/
def absorbCommands (bytes : List Byte) : List Instr := bytes.map Instr.absorb8

/-- `absorbn <count>, <byte>` (R59): `count` copies of `absorb8 <byte>`. -/
def absorbnCommands (count : Nat) (b : Byte) : List Instr := List.replicate count (Instr.absorb8 b)

/-- `sha256 <bytes>` (R60): `new`, then `absorb <bytes>`, then `finalize`. -/
def sha256Commands (bytes : List Byte) : List Instr :=
  [Instr.new] ++ absorbCommands bytes ++ [Instr.finalize]

/-! ### Text -/

/-- What a line is made of: words, quoted characters, quoted strings and commas. -/
inductive Token where
  | word (cs : List Char)
  | quoted (b : Byte)
  | str (bytes : List Byte)
  | comma
deriving DecidableEq, Repr

/-- Where the reader of a line stands: between tokens, right after a quoted token, inside a word, or
inside a string. What has been read of a token is kept last character first. -/
inductive LexMode where
  | between
  | afterQuote
  | inWord (acc : List Char)
  | inString (acc : List Byte)
deriving DecidableEq, Repr

/-- The byte of an ASCII character. -/
def charByte (c : Char) : Byte := BitVec.ofNat 8 c.toNat

/-- A printable ASCII character (R57). -/
def printable (c : Char) : Bool := 0x20 ≤ c.toNat && c.toNat ≤ 0x7e

/-- A character that separates tokens. -/
def blankChar (c : Char) : Bool := c == ' ' || c == '\t'

/-- Put a token before the tokens of the rest of a line. -/
def andThen (t : Token) (rest : Option (List Token)) : Option (List Token) := rest.map (t :: ·)

/-- The tokens of a line; `#` outside quotes starts a comment (R57). -/
def lex : LexMode → List Char → Option (List Token)
  | .between, [] => some []
  | .between, '#' :: _ => some []
  | .between, ',' :: rest => andThen .comma (lex .between rest)
  | .between, '"' :: rest => lex (.inString []) rest
  | .between, '\'' :: c :: '\'' :: rest =>
    if printable c then andThen (.quoted (charByte c)) (lex .afterQuote rest) else none
  | .between, c :: rest => if blankChar c then lex .between rest else lex (.inWord [c]) rest
  | .afterQuote, [] => some []
  | .afterQuote, '#' :: _ => some []
  | .afterQuote, c :: rest => if blankChar c then lex .between rest else none
  | .inWord acc, [] => some [.word acc.reverse]
  | .inWord acc, '#' :: _ => some [.word acc.reverse]
  | .inWord acc, ',' :: rest => andThen (.word acc.reverse) (andThen .comma (lex .between rest))
  | .inWord acc, c :: rest =>
    if blankChar c then andThen (.word acc.reverse) (lex .between rest) else lex (.inWord (c :: acc)) rest
  | .inString _, [] => none
  | .inString acc, '"' :: rest => andThen (.str acc.reverse) (lex .afterQuote rest)
  | .inString acc, c :: rest => if c.toNat < 128 then lex (.inString (charByte c :: acc)) rest else none

/-- The value of a decimal digit. -/
def decimalDigit (c : Char) : Option Nat :=
  if '0' ≤ c ∧ c ≤ '9' then some (c.toNat - '0'.toNat) else none

/-- The value of a hexadecimal digit, in lower or upper case. -/
def hexDigit (c : Char) : Option Nat :=
  if '0' ≤ c ∧ c ≤ '9' then some (c.toNat - '0'.toNat)
  else if 'a' ≤ c ∧ c ≤ 'f' then some (c.toNat - 'a'.toNat + 10)
  else if 'A' ≤ c ∧ c ≤ 'F' then some (c.toNat - 'A'.toNat + 10)
  else none

/-- A decimal number read on from the value `acc` of the digits before. -/
def decimalFrom (acc : Nat) : List Char → Option Nat
  | [] => some acc
  | c :: rest =>
    match decimalDigit c with
    | none => none
    | some d => decimalFrom (10 * acc + d) rest

/-- A decimal number (R57, R59): at least one digit. -/
def decimal : List Char → Option Nat
  | [] => none
  | c :: rest => decimalFrom 0 (c :: rest)

/-- `<byte>` (R57): `0x` and two hex digits, a decimal number 0..255, or one quoted character. -/
def parseByte : Token → Option Byte
  | .quoted b => some b
  | .word ['0', 'x', hi, lo] =>
    match hexDigit hi, hexDigit lo with
    | some a, some b => some (BitVec.ofNat 8 (16 * a + b))
    | _, _ => none
  | .word cs =>
    match decimal cs with
    | some n => if n < 256 then some (BitVec.ofNat 8 n) else none
    | none => none
  | _ => none

/-- A list of `<byte>` items (R58). -/
def parseItems : List Token → Option (List Byte)
  | [] => some []
  | t :: rest =>
    match parseByte t, parseItems rest with
    | some b, some bs => some (b :: bs)
    | _, _ => none

/-- `<bytes>` (R58): one string, or a list of at least one `<byte>` item. -/
def parseBytes : List Token → Option (List Byte)
  | [] => none
  | [.str bytes] => some bytes
  | ts => parseItems ts

/-- A word spells a mnemonic, in lower or in upper case (R57). -/
def spells (name cs : List Char) : Bool := cs == name || cs == name.map Char.toUpper

/-- The commands of the tokens of one line (R57 to R60). -/
def parseTokens : List Token → Option (List Instr)
  | [] => some []
  | .word m :: operands =>
    if spells ['n', 'e', 'w'] m then
      if operands.isEmpty then some [.new] else none
    else if spells ['f', 'i', 'n', 'a', 'l', 'i', 'z', 'e'] m then
      if operands.isEmpty then some [.finalize] else none
    else if spells ['a', 'b', 's', 'o', 'r', 'b', '8'] m then
      match operands with
      | [t] => (parseByte t).map (fun b => [.absorb8 b])
      | _ => none
    else if spells ['a', 'b', 's', 'o', 'r', 'b'] m then
      (parseBytes operands).map absorbCommands
    else if spells ['a', 'b', 's', 'o', 'r', 'b', 'n'] m then
      match operands with
      | [.word count, .comma, t] =>
        match decimal count, parseByte t with
        | some n, some b => some (absorbnCommands n b)
        | _, _ => none
      | _ => none
    else if spells ['s', 'h', 'a', '2', '5', '6'] m then
      (parseBytes operands).map sha256Commands
    else none
  | _ => none

/-- The commands of one line of text. -/
def parseLine (line : List Char) : Option (List Instr) :=
  match lex .between line with
  | none => none
  | some ts => parseTokens ts

/-- The command words of a text given line by line; `none` if a line is none. -/
def assemble : List (List Char) → Option (List CommandWord)
  | [] => some []
  | line :: rest =>
    match parseLine line, assemble rest with
    | some is, some ws => some (is.map encode ++ ws)
    | _, _ => none

/-- One lower-case hex digit. -/
def hexChar (n : Nat) : Char :=
  if n < 10 then Char.ofNat ('0'.toNat + n) else Char.ofNat ('a'.toNat + (n - 10))

/-- A listing shows each word as three hex digits (R57). -/
def listing (cw : CommandWord) : List Char :=
  [hexChar (cw.toNat / 256), hexChar (cw.toNat / 16 % 16), hexChar (cw.toNat % 16)]

end Sys2Proof.Machine
end

