-- ==== Sys2Proof/Machine/Instances.lean ====
section
/-! DEFINITION. Several instances (spec 60_exceptions.md R115, 20_memory.md R47): the product of
independent single instances. Their number `N_INST` is the one open parameter (R5, D13) and is an
argument here (log 9). -/

namespace Sys2Proof.Machine

open Sys2Proof

/-- `N_INST` instances side by side. They share only the two ROMs, which nothing writes. -/
abbrev Instances (nInst : Nat) := Vector State nInst

/-- Each instance comes out of its own reset (R115). -/
def Instances.reset (nInst : Nat) : Instances nInst := Vector.replicate nInst State.reset

/-- One step of instance `i`; the others do not move (R47). -/
def Instances.step {nInst : Nat} (i : Fin nInst) (sys : Instances nInst) :
    Host.Outcome (Instances nInst) Fault Refusal :=
  match Sys2Proof.Machine.step sys[i] with
  | .next s => .next (sys.set i.val s)
  | .fault r => .fault r
  | .refused r => .refused r

end Sys2Proof.Machine
end

