-- ==== Sys2Proof/Machine/Reference.lean ====
section
/-! DEFINITION. The reference function `SHA256(M)` (spec 40_commands.md R68) and the whole padded
message (41_padding.md R78): logical sequences, with no engine state, used to state what the engine
computes. -/

namespace Sys2Proof.Machine

open Sys2Proof

/-- Block `n` of a byte sequence: `P[64n .. 64n+63]` (R78). It is used only where the sequence has all 64
of them (log 12). -/
def blockAt (P : List Byte) (n : Nat) : Block :=
  Vector.ofFn (fun i => P.getD (64 * n + i.val) 0x00#8)

/-- The chaining value after blocks `0 .. n-1` of `P`, in order, from `X` (R68, R95). -/
def chainBlocks (X : Chain) (P : List Byte) : Nat → Chain
  | 0 => X
  | n + 1 => compress (chainBlocks X P n) (blockAt P n)

/-- `PADMSG(M) = PADBUILD(M, |M|)` (R78). -/
def padMsg (M : List Byte) : List Byte := padBuild M M.length

/-- `SHA256(M)` (R68). -/
def sha256 (M : List Byte) : Digest :=
  serialize (chainBlocks Config.iv (padMsg M) ((padMsg M).length / 64))

end Sys2Proof.Machine
end

