-- ==== Sys2Proof/Safety.lean ====
section
/-! DEFINITION. What claims are stated in terms of: the invariant of the machine, the premises of a run
(spec 70_reset_and_hazards.md R126), what a host and the rules can see of a state (10_state.md R29,
R30), and what it means that a state has absorbed a message (40_commands.md R69). -/

namespace Sys2Proof.Machine

open Sys2Proof

/-- `CAUSE` and `ERR` agree (R25, R102): `CAUSE` is 0 exactly while no fault is recorded, and never 3. -/
abbrev State.RecordOk (s : State) : Prop :=
  s.cause ≠ 3#2 ∧ (s.err = false ↔ s.cause = 0#2)

/-- The live bytes of `BUF`, offsets below `FILL`, hold values (R21). -/
abbrev State.BufLive (s : State) : Prop :=
  ∀ i, i < fill s → (s.buf.get? i).isSome = true

/-- The invariant: the stores keep their canonical form within their sizes (R33), the live bytes of
`BUF` hold values (R21), and the fault record is one that R25 allows. -/
abbrev State.Inv (s : State) : Prop :=
  s.buf.wf 64 = true ∧ s.pbuf.wf 128 = true ∧ s.BufLive ∧ s.RecordOk

/-- Scratch and stale storage hold no value (R30): `W`, `a .. h`, `PBUF`, `t`, `j` and `BUF[FILL..63]`. -/
def State.NothingStale (s : State) : Prop :=
  s.wv = none ∧ s.w = none ∧ s.pbuf = [] ∧ s.t = none ∧ s.j = none ∧
    ∀ a, fill s ≤ a → s.buf.get? a = none

/-- `AfterNew` (R126): `H = IV`, `LEN = 0`, `PHASE = ACC`. -/
abbrev State.AfterNew (s : State) : Prop :=
  s.h = Config.iv ∧ s.len = 0#64 ∧ s.phase = .acc

/-- `NoFaultRecorded` (R126): `ERR = 0`. -/
abbrev State.NoFaultRecorded (s : State) : Prop := s.err = false

/-- `AfterReset` (R126): `AfterNew` with an empty fault record. -/
abbrev State.AfterReset (s : State) : Prop := s.AfterNew ∧ s.NoFaultRecorded ∧ s.cause = 0#2

/-- Two states agree on everything but `W`, `a .. h`, `PBUF`, `t`, `j` and the stale bytes `BUF[FILL..63]`
(R30). -/
def State.AgreeLive (s s' : State) : Prop :=
  s.h = s'.h ∧ s.len = s'.len ∧ s.phase = s'.phase ∧ s.err = s'.err ∧ s.cause = s'.cause ∧
    s.pending = s'.pending ∧ s.response = s'.response ∧
    ∀ i, i < fill s → s.buf.get? i = s'.buf.get? i

/-- The bytes `R` are the live part of `BUF`, in order (R21). -/
def State.Tail (s : State) (R : List Byte) : Prop :=
  R.length = fill s ∧ ∀ i, i < fill s → s.buf.get? i = R[i]?

/-- The state has absorbed exactly the message `M` since the last `NEW` or reset (R69): it is
accumulating, `LEN` counts `M` modulo 2^64, `H` is the chain of the complete blocks of `M`, and `BUF`
holds the rest of it. -/
def State.Absorbed (s : State) (M : List Byte) : Prop :=
  s.phase = .acc ∧ s.len = BitVec.ofNat 64 M.length ∧
    s.h = chainBlocks Config.iv M (M.length / 64) ∧ s.Tail (M.drop (M.length / 64 * 64))

/-- The command words of a list executed one after another, in the order the host issues them (R61). It
stops where a command stops. -/
def runWords : List CommandWord → State → Host.Outcome State Fault Refusal
  | [], s => .next s
  | cw :: rest, s =>
    match execWord cw s with
    | .next s' => runWords rest s'
    | .fault r => .fault r
    | .refused r => .refused r

/-- The message bytes that a list of command words carries, in order (R14, R35). -/
def messageOf : List CommandWord → List Byte
  | [] => []
  | cw :: rest =>
    match decode cw with
    | .ok (.absorb8 d) => d :: messageOf rest
    | _ => messageOf rest

/-- Two states agree on what the sequencer branches on besides the opcode: `PHASE` and `LEN` (R97). -/
def State.AgreeControl (s s' : State) : Prop := s.phase = s'.phase ∧ s.len = s'.len

/-- The number of blocks a command compresses, from its opcode, `PHASE` and `LEN` (R97): one for an
`ABSORB8` in `ACC` that completes a block (R63), one or two for a `FINALIZE` in `ACC` (R64, R77). -/
def blockCount (op : BitVec 2) : Phase → BitVec 64 → Nat
  | .fin, _ => 0
  | .acc, len =>
    if op = 1#2 then (if len.toNat % 64 = 63 then 1 else 0)
    else if op = 2#2 then (if len.toNat % 64 ≤ 55 then 1 else 2)
    else 0

/-- The scratch that only `COMPRESS` writes, and the index `j` and `PBUF` that only `FINALIZE` writes, are
the same in two states (R15). -/
def State.SameScratch (s s' : State) : Prop :=
  s.wv = s'.wv ∧ s.w = s'.w ∧ s.pbuf = s'.pbuf ∧ s.t = s'.t ∧ s.j = s'.j

/-- `ABSORB(S)` (R66): one `ABSORB8` for each byte of `S`, in order; no command at all for an empty `S`.
It stops where a command stops. -/
def absorbAll : List Byte → State → Host.Outcome State Fault Refusal
  | [], s => .next s
  | d :: rest, s =>
    match exec (.absorb8 d) s with
    | .next s' => absorbAll rest s'
    | .fault r => .fault r
    | .refused r => .refused r

end Sys2Proof.Machine
end

