-- ==== Sys2Proof/Certificates/Slice0/Obligations.lean ====
section
/-! DEFINITION. The statements for the provers, drawn from the numbered rules of the spec. A statement
whose basis is 'derived' rests on what the spec marks as derived or on a choice of the model; its
docstring then says which. -/

open Sys2Proof Sys2Proof.Machine

/-! ### Words: encoding and decoding -/

/-- R55: `decode` on the two fields of a word, `encode` on the three commands, and that they are inverse
to each other on the defined words. -/
def Obligations.DecodeEncodeAgree : Prop :=
  (∀ cw : CommandWord,
    if (fields cw).op = 0#2 ∧ (fields cw).imm8 = 0#8 then decode cw = .ok .new
    else if (fields cw).op = 1#2 then decode cw = .ok (.absorb8 (fields cw).imm8)
    else if (fields cw).op = 2#2 ∧ (fields cw).imm8 = 0#8 then decode cw = .ok .finalize
    else ∃ r, decode cw = .error r) ∧
  encode .new = 0x000#10 ∧
  (∀ d : Byte, encode (.absorb8 d) = 0x100#10 + BitVec.setWidth 10 d) ∧
  encode .finalize = 0x200#10 ∧
  (∀ i : Instr, decode (encode i) = .ok i) ∧
  (∀ (cw : CommandWord) (i : Instr), decode cw = .ok i → encode i = cw)

/-- R52 and R104: exactly the words of the three ranges are reserved, and executing one raises
`IllegalCommand` in either phase: the fault record and the response, and nothing else. That the host's
words wait in the field `pending`, from which the step takes this one, is the model's choice (log 1). -/
def Obligations.ReservedWordsFault : Prop :=
  (∀ cw : CommandWord,
    (∃ r, decode cw = .error r) ↔
      ((0x300 ≤ cw.toNat ∧ cw.toNat ≤ 0x3FF) ∨ (0x001 ≤ cw.toNat ∧ cw.toNat ≤ 0x0FF) ∨
        (0x201 ≤ cw.toNat ∧ cw.toNat ≤ 0x2FF))) ∧
  (∀ (s : State) (cw : CommandWord) (rest : List HostInput) (r : Reserved),
    s.pending = .command cw :: rest → decode cw = .error r →
      step s = .next
        { s with
          pending := rest
          err := true
          cause := if s.err then s.cause else 2#2
          response := some (.fault .illegalCommand) })

/-- R51, R55: words written out from the opcode map name the commands they stand for. -/
def Obligations.WrittenWordsDecode : Prop :=
  decode 0b0000000000#10 = .ok .new ∧
  decode 0b0100000000#10 = .ok (.absorb8 0x00#8) ∧
  decode 0b0101100001#10 = .ok (.absorb8 0x61#8) ∧
  decode 0b0111111111#10 = .ok (.absorb8 0xff#8) ∧
  decode 0b1000000000#10 = .ok .finalize

/-! ### The step -/

/-- R61: a step in which the host presents a command word executes that command, on the state without the
word, which is forgotten (R45); and the table's bits of a row, presented next, run that row's command.
That the host's words wait in the field `pending` is the model's choice (logs 1 and 8). -/
def Obligations.StepRunsDecodedCommand : Prop :=
  (∀ (s : State) (cw : CommandWord) (rest : List HostInput) (i : Instr),
    s.pending = .command cw :: rest → decode cw = .ok i →
      step s = exec i { s with pending := rest }) ∧
  (∀ (s : State) (nbits w : Nat) (i : Instr),
    decodeTableWord nbits w = some i → step (s.withFetchWord nbits w) = exec i s)

/-- R118, R119, R125: a reset between commands gives the reset values of R31 and no response. That the
host's later inputs stay is the model's choice (log 7), and so is that `DIGEST`, which is not valid in
`ACC`, cannot be read there (log 10, among the choices of D22). -/
def Obligations.ResetInputGivesResetValues : Prop :=
  ∀ (s : State) (rest : List HostInput), s.pending = .reset :: rest →
    ∃ t, step s = .next t ∧ t.h = Config.iv ∧ t.len = 0#64 ∧ fill t = 0 ∧ t.phase = .acc ∧
      t.err = false ∧ t.cause = 0#2 ∧ status t = 0b0000#4 ∧ readDigest t = none ∧
      t.response = none ∧ t.pending = rest

/-- R117 ("Between commands the engine simply holds its state"): a step without a host input changes
nothing; that it counts as a step and produces no response is the model's choice (log 3). -/
def Obligations.IdleStepHoldsState : Prop :=
  ∀ s : State, s.pending = [] → step s = .next { s with response := none }

/-- R31: the values the spec gives for reset. That `DIGEST`, which is not valid then, cannot be read is the
model's choice among those of D22 (log 10). -/
def Obligations.ResetStateValues : Prop :=
  State.reset.h = Config.iv ∧ State.reset.len = 0#64 ∧ fill State.reset = 0 ∧
    State.reset.phase = .acc ∧ State.reset.err = false ∧ State.reset.cause = 0#2 ∧
    status State.reset = 0b0000#4 ∧ readDigest State.reset = none

/-- The invariants hold after reset, for the reset values of R31; that what R31 calls unspecified is state
that holds no value is the model's choice among the two of R30 (log 4). -/
def Obligations.ResetMeetsInvariant : Prop :=
  State.reset.Inv ∧ State.reset.AfterReset ∧ State.reset.NothingStale

/-- Every step keeps the invariant: the stores stay in canonical form within 64 and 128 bytes (R33), the
live bytes of `BUF` hold values (R21), and the fault record stays one that R25 allows. -/
def Obligations.EveryStepKeepsInvariant : Prop :=
  ∀ s t : State, s.Inv → step s = .next t → t.Inv

/-- R30: between commands scratch and stale bytes hold no value. Every step keeps this; that they are state
which holds none, and not left out of the state, is the model's choice among the two of R30 (log 6). -/
def Obligations.EveryStepLeavesNothingStale : Prop :=
  ∀ s t : State, s.NothingStale → step s = .next t → t.NothingStale

/-- R61 ("the step function is total", marked derived): wherever the live bytes of `BUF` hold values, and so
wherever the invariant holds, every step gives a next state. -/
def Obligations.LiveStepsAlwaysComplete : Prop :=
  ∀ s : State, s.BufLive → ∃ t, step s = .next t

/-! ### The commands -/

/-- R62: `NEW`, in either phase and in every state. It writes no byte of `BUF`: where one holds a value
afterwards, it is the value from before. -/
def Obligations.NewStartsMessage : Prop :=
  encode .new = 0x000#10 ∧
  ∀ s : State, ∃ t, exec .new s = .next t ∧
    t.h = Config.iv ∧ t.len = 0#64 ∧ fill t = 0 ∧ t.phase = .acc ∧ t.response = some .ok ∧
    t.err = s.err ∧ t.cause = s.cause ∧ t.SameScratch s ∧ t.pending = s.pending ∧
    (∀ a v, t.buf.get? a = some v → s.buf.get? a = some v)

/-- R63: `ABSORB8 d` in its three cases: dropped in `FIN`; stored and counted; stored, counted and the
block compressed, with `d` its 64th byte (the bytes of that block are stale afterwards:
`EveryStepLeavesNothingStale`, `Absorb8Frame`). The counter wraps without a fault. -/
def Obligations.Absorb8StoresCountsCompresses : Prop :=
  (∀ d : Byte, encode (.absorb8 d) = 0x100#10 + BitVec.setWidth 10 d) ∧
  (∀ (s : State) (d : Byte), s.phase = .fin →
    exec (.absorb8 d) s = .next
      { s with
        err := true
        cause := if s.err then s.cause else 1#2
        response := some (.fault .usageFault) }) ∧
  (∀ (s : State) (d : Byte), s.phase = .acc → s.len.toNat % 64 ≠ 63 →
    ∃ t, exec (.absorb8 d) s = .next t ∧ t.h = s.h ∧
      t.len.toNat = (s.len.toNat + 1) % 2 ^ 64 ∧
      (∀ a, t.buf.get? a = if a = s.len.toNat % 64 then some d else s.buf.get? a) ∧
      t.phase = .acc ∧ t.err = s.err ∧ t.cause = s.cause ∧ t.SameScratch s ∧
      t.pending = s.pending ∧ t.response = some .ok) ∧
  (∀ (s : State) (d : Byte) (B : Block), s.phase = .acc → s.len.toNat % 64 = 63 →
    (∀ i : Fin 63, s.buf.get? i.val = some B[i.val]) → B[63] = d →
    ∃ t, exec (.absorb8 d) s = .next t ∧ t.h = compress s.h B ∧
      t.len.toNat = (s.len.toNat + 1) % 2 ^ 64 ∧
      fill t = 0 ∧ t.phase = .acc ∧ t.err = s.err ∧ t.cause = s.cause ∧ t.pbuf = s.pbuf ∧ t.j = s.j ∧
      t.pending = s.pending ∧ t.response = some .ok)

/-- R103: `ABSORB8` after `FINALIZE` drops the byte; a second `FINALIZE` is not a usage fault. -/
def Obligations.Absorb8AfterFinalizeIsUsageFault : Prop :=
  ∀ (s : State) (d : Byte), s.phase = .fin →
    (∃ t, exec (.absorb8 d) s = .next t ∧ t.response = some (.fault .usageFault) ∧
      t.err = true ∧ t.cause = (if s.err then s.cause else 1#2) ∧
      t.buf = s.buf ∧ t.len = s.len ∧ t.h = s.h ∧ t.phase = .fin ∧ readDigest t = readDigest s) ∧
    (∃ t, exec .finalize s = .next t ∧ ∀ c, t.response ≠ some (.fault c))

/-- R64: `FINALIZE`. In `FIN` the digest already held, and no state change; in `ACC`, with `R` the live
bytes of `BUF`, the padded tail compressed block by block, the digest presented, `BUF` and `LEN` as
they were. What `PBUF` holds afterwards is no part of R64 (R79): `FinalizeFrame` says it. -/
def Obligations.FinalizePadsCompressesPresents : Prop :=
  encode .finalize = 0x200#10 ∧
  (∀ s : State, s.phase = .fin →
    exec .finalize s = .next { s with response := some (.digest (serialize s.h)) }) ∧
  (∀ (s : State) (R : List Byte), s.phase = .acc → s.Tail R →
    (padBuild R s.len.toNat).length = (if s.len.toNat % 64 ≤ 55 then 64 else 128) ∧
    ∃ t, exec .finalize s = .next t ∧
      t.h = chainBlocks s.h (padBuild R s.len.toNat) ((padBuild R s.len.toNat).length / 64) ∧
      t.response = some (.digest (serialize t.h)) ∧ t.phase = .fin ∧
      t.len = s.len ∧ t.buf = s.buf ∧ t.err = s.err ∧ t.cause = s.cause ∧ t.pending = s.pending)

/-- R109: fault entry, in every state and for both faults. -/
def Obligations.FaultEntryRecordsFirstCause : Prop :=
  ∀ (s : State) (c : FaultCode),
    raise c s =
      { s with
        cause := if s.err = false then faultCode c else s.cause
        err := true
        response := some (.fault c) } ∧
    faultCode .usageFault = 1#2 ∧ faultCode .illegalCommand = 2#2

/-- R65: the transition table's next `PHASE` and response, one row per phase and decoded word, for a
word executed in a state whose live bytes hold values. -/
def Obligations.TransitionTable : Prop :=
  ∀ (s : State) (cw : CommandWord), s.BufLive →
    ∃ t, execWord cw s = .next t ∧
      match s.phase, decode cw with
      | .acc, .ok .new         => t.phase = .acc ∧ t.response = some .ok
      | .acc, .ok (.absorb8 _) => t.phase = .acc ∧ t.response = some .ok
      | .acc, .ok .finalize    => t.phase = .fin ∧ t.response = some (.digest (serialize t.h))
      | .acc, .error _         => t.phase = .acc ∧ t.response = some (.fault .illegalCommand)
      | .fin, .ok .new         => t.phase = .acc ∧ t.response = some .ok
      | .fin, .ok (.absorb8 _) => t.phase = .fin ∧ t.response = some (.fault .usageFault)
      | .fin, .ok .finalize    => t.phase = .fin ∧ t.response = some (.digest (serialize s.h))
      | .fin, .error _         => t.phase = .fin ∧ t.response = some (.fault .illegalCommand)

/-- R56: every command produces one response, of one of three shapes; the digest of `FINALIZE` is the
`DIGEST` output after the command. -/
def Obligations.EveryWordHasOneResponse : Prop :=
  ∀ (s t : State) (cw : CommandWord), execWord cw s = .next t →
    match decode cw with
    | .ok .new         => t.response = some .ok
    | .ok (.absorb8 _) => t.response = some .ok ∨ t.response = some (.fault .usageFault)
    | .ok .finalize    => ∃ d, t.response = some (.digest d) ∧ readDigest t = some d
    | .error _         => t.response = some (.fault .illegalCommand)

/-! ### Frames and whole-machine rules -/

/-- What `ABSORB8` leaves unchanged (R63): all but the fault record in `FIN`; in `ACC` all but one byte of
`BUF` and `LEN`. When a block completes, `H` changes too, and the bytes of `BUF` and the scratch that
`COMPRESS` used hold no value from then on (R30; that they are state is the model's choice, log 6). -/
def Obligations.Absorb8Frame : Prop :=
  ∀ (s t : State) (d : Byte), exec (.absorb8 d) s = .next t →
    t.phase = s.phase ∧ t.pbuf = s.pbuf ∧ t.j = s.j ∧ t.pending = s.pending ∧
    (s.phase = .fin → t.len = s.len ∧ t.buf = s.buf) ∧
    (s.phase = .acc → t.err = s.err ∧ t.cause = s.cause) ∧
    ((s.phase = .fin ∨ fill s ≠ 63) →
      t.h = s.h ∧ t.wv = s.wv ∧ t.w = s.w ∧ t.t = s.t ∧
      (∀ a, a ≠ fill s → t.buf.get? a = s.buf.get? a)) ∧
    (s.phase = .acc → fill s = 63 →
      t.wv = none ∧ t.w = none ∧ t.t = none ∧ (∀ a, t.buf.get? a = none))

/-- What `FINALIZE` leaves unchanged (R64): everything in `FIN`; in `ACC` all but `H`, `PHASE` and the
scratch it used, `PBUF` among it, which holds no value from then on (R30, R79; that it is state is the
model's choice, log 6). -/
def Obligations.FinalizeFrame : Prop :=
  ∀ s t : State, exec .finalize s = .next t →
    t.len = s.len ∧ t.buf = s.buf ∧ t.err = s.err ∧ t.cause = s.cause ∧ t.pending = s.pending ∧
    (s.phase = .fin → t.h = s.h ∧ t.phase = s.phase ∧ t.SameScratch s) ∧
    (s.phase = .acc → t.wv = none ∧ t.w = none ∧ t.t = none ∧ t.j = none ∧
      (∀ a, t.pbuf.get? a = none))

/-- What `NEW` leaves unchanged (R62): the fault record, `PBUF`, and all other scratch. The bytes of `BUF`,
none of which is live any more, hold no value from then on (R30; that they are state is the model's choice,
log 6). So the instance cannot be told from a reset one but by the fault record (R62, marked derived), and by
the host's inputs and the response, which are the model's own (logs 1, 2). -/
def Obligations.NewFrame : Prop :=
  ∀ s t : State, exec .new s = .next t →
    t.err = s.err ∧ t.cause = s.cause ∧ t.SameScratch s ∧ t.pending = s.pending ∧
    (∀ a, t.buf.get? a = none) ∧
    t.AgreeLive
      { State.reset with
        err := s.err, cause := s.cause, pending := s.pending, response := some .ok }

/-- R16: `H` changes only by reset, by `NEW`, by an `ABSORB8` that completes a block, and by the first
`FINALIZE`; in particular no fault changes it. -/
def Obligations.OnlyTheseInputsChangeChain : Prop :=
  ∀ s t : State, step s = .next t → t.h ≠ s.h →
    (∃ rest, s.pending = .reset :: rest) ∨
    ∃ cw rest, s.pending = .command cw :: rest ∧
      (decode cw = .ok .new ∨
        (∃ d, decode cw = .ok (.absorb8 d) ∧ s.phase = .acc ∧ fill s = 63) ∨
        (decode cw = .ok .finalize ∧ s.phase = .acc))

/-- R24: the phase is set to `FIN` only by a `FINALIZE` executed in `ACC`, and to `ACC` only by reset and
`NEW`. -/
def Obligations.OnlyTheseInputsChangePhase : Prop :=
  ∀ s t : State, step s = .next t → t.phase ≠ s.phase →
    (t.phase = .fin ∧ ∃ cw rest, s.pending = .command cw :: rest ∧ decode cw = .ok .finalize) ∨
    (t.phase = .acc ∧
      ((∃ rest, s.pending = .reset :: rest) ∨
        ∃ cw rest, s.pending = .command cw :: rest ∧ decode cw = .ok .new))

/-- R25, R110: once a fault is recorded, only reset clears `ERR`, and `CAUSE` keeps the first code. -/
def Obligations.FaultRecordIsSticky : Prop :=
  ∀ s t : State, step s = .next t → s.err = true →
    (∀ rest, s.pending ≠ .reset :: rest) → t.err = true ∧ t.cause = s.cause

/-- R25, R109: a fault is recorded only by a step that responds with that fault, and such a step changes
nothing but the record and the host's inputs. -/
def Obligations.OnlyFaultsAreRecorded : Prop :=
  ∀ s t : State, step s = .next t → s.err = false → t.err = true →
    ∃ c, t.response = some (.fault c) ∧ t.cause = faultCode c ∧
      t.h = s.h ∧ t.len = s.len ∧ t.buf = s.buf ∧ t.phase = s.phase ∧ t.SameScratch s

/-- R28: the layout of `STATUS`, and that it can be read in every state. -/
def Obligations.StatusLayout : Prop :=
  ∀ s : State,
    (status s).getLsbD 0 = (s.phase == .fin) ∧
    (status s).getLsbD 1 = s.err ∧
    (status s).extractLsb' 2 2 = s.cause

/-- R27: `DIGEST` is the serialised `H`, valid exactly while `PHASE = FIN`. That the model offers no read
in `ACC` is its choice among those of D22 (log 10). -/
def Obligations.DigestValidExactlyWhenFinalized : Prop :=
  ∀ s : State,
    (s.phase = .fin → readDigest s = some (serialize s.h)) ∧ (s.phase = .acc → readDigest s = none)

/-- R101 (marked derived): once finalized, every word but `NEW` completes, keeps the phase and leaves the
digest as it is. -/
def Obligations.DigestStableUntilNew : Prop :=
  ∀ (s : State) (cw : CommandWord), s.phase = .fin → decode cw ≠ .ok .new →
    ∃ t, execWord cw s = .next t ∧ t.phase = .fin ∧ t.h = s.h ∧ readDigest t = readDigest s

/-- R30: scratch and stale bytes cannot be observed. Two states that agree on all the rest, whatever their
scratch and stale bytes hold or whether they hold anything, take the same kind of step, to states that
agree again. -/
def Obligations.StaleStorageIsNeverObserved : Prop :=
  ∀ s s' t : State, s.AgreeLive s' → step s = .next t → ∃ t', step s' = .next t' ∧ t.AgreeLive t'

/-- R97: the path and the trip counts of a command depend on the opcode, `PHASE` and `LEN` only. With these
equal, two states and two message bytes give equal `PHASE` and `LEN`, the same kind of response, and, where
the record or the indices were equal, equal ones again; and the blocks a command folds into `H` are as many
as `blockCount` says, which is given nothing else. -/
def Obligations.ControlIgnoresData : Prop :=
  (∀ (s s' : State) (i i' : Instr), s.AgreeControl s' → s.BufLive → s'.BufLive →
    (toFields i).op = (toFields i').op →
    ∃ t t', exec i s = .next t ∧ exec i' s' = .next t' ∧ t.AgreeControl t' ∧
      (∀ c, t.response = some (.fault c) ↔ t'.response = some (.fault c)) ∧
      (t.response = some .ok ↔ t'.response = some .ok) ∧
      (s.err = s'.err → s.cause = s'.cause → t.err = t'.err ∧ t.cause = t'.cause) ∧
      (s.t = s'.t → t.t = t'.t) ∧ (s.j = s'.j → t.j = t'.j)) ∧
  (∀ (s t : State) (i : Instr), exec i s = .next t →
    ∃ Bs : List Block, Bs.length = blockCount (toFields i).op s.phase s.len ∧
      t.h = Bs.foldl compress (if i = .new then Config.iv else s.h))

/-- R47, R115: a step of one instance leaves every other one as it was, and steps of two instances
commute. -/
def Obligations.InstancesAreIndependent : Prop :=
  ∀ (n : Nat) (sys sys1 : Instances n) (i : Fin n), Instances.step i sys = .next sys1 →
    step sys[i] = .next sys1[i] ∧
    (∀ k : Fin n, k ≠ i → sys1[k] = sys[k]) ∧
    (∀ (k : Fin n) (sys2 : Instances n), k ≠ i → Instances.step k sys = .next sys2 →
      ∃ sys3, Instances.step k sys1 = .next sys3 ∧ Instances.step i sys2 = .next sys3)

/-! ### What a lifetime computes -/

/-- R21, R23, R35: a state that has absorbed `M` has, after one more byte, absorbed `M` and that byte; and
after `NEW` it has absorbed nothing. -/
def Obligations.AbsorbedMessageGrowsByByte : Prop :=
  (∀ s : State, ∃ t, exec .new s = .next t ∧ t.Absorbed []) ∧
  (∀ (s : State) (M : List Byte) (d : Byte), s.Absorbed M →
    ∃ t, exec (.absorb8 d) s = .next t ∧ t.Absorbed (M ++ [d]))

/-- R64, R68, R80: `FINALIZE` in a state that has absorbed `M` presents `SHA256(M)`. -/
def Obligations.FinalizePresentsSha256 : Prop :=
  ∀ (s : State) (M : List Byte), s.Absorbed M →
    ∃ t, exec .finalize s = .next t ∧ t.response = some (.digest (sha256 M)) ∧
      readDigest t = some (sha256 M)

/-- R69 (marked derived): from `NEW` or reset, any words that absorb bytes, with any reserved words among
them, then `FINALIZE`: the response is the digest of the bytes absorbed. -/
def Obligations.LifetimeComputesSha256 : Prop :=
  ∀ (s : State) (cws : List CommandWord), s.AfterNew →
    (∀ cw ∈ cws, decode cw ≠ .ok .new ∧ decode cw ≠ .ok .finalize) →
    ∃ t u, runWords cws s = .next t ∧ execWord 0x200#10 t = .next u ∧
      u.response = some (.digest (sha256 (messageOf cws)))

/-- R60 with R69: the words of the pseudo-instruction `sha256 <bytes>` compute `SHA256` of the bytes, from
every state, whatever was going on before. -/
def Obligations.PseudoSha256FromAnyState : Prop :=
  ∀ (s : State) (M : List Byte),
    ∃ t, runWords ((sha256Commands M).map encode) s = .next t ∧
      t.response = some (.digest (sha256 M)) ∧ t.err = s.err ∧ t.cause = s.cause

/-- R66, R67 (marked derived): in a state that has absorbed `M`, `ABSORB(S)` completes in one that has
absorbed `M ++ S`, without a fault recorded; in two chunks it ends in the very state in which the whole
ends. In `FIN` a non-empty `ABSORB(S)` faults at every byte: only the fault record and the response change. -/
def Obligations.AbsorbExtendsMessage : Prop :=
  (∀ (s : State) (M S : List Byte), s.Absorbed M →
    ∃ t, absorbAll S s = .next t ∧ t.Absorbed (M ++ S) ∧
      t.err = s.err ∧ t.cause = s.cause ∧ t.pending = s.pending) ∧
  (∀ (s : State) (M S₁ S₂ : List Byte), s.Absorbed M →
    ∃ t u, absorbAll S₁ s = .next t ∧ absorbAll S₂ t = .next u ∧
      absorbAll (S₁ ++ S₂) s = .next u ∧ u.Absorbed (M ++ S₁ ++ S₂)) ∧
  (∀ (s : State) (d : Byte) (S : List Byte), s.phase = .fin →
    absorbAll (d :: S) s = .next
      { s with
        err := true
        cause := if s.err then s.cause else 1#2
        response := some (.fault .usageFault) })

/-- R58, R66: the words of the pseudo-instruction `absorb <bytes>` do what `ABSORB` of the bytes does, from
every state. -/
def Obligations.PseudoAbsorbIsAbsorb : Prop :=
  ∀ (S : List Byte) (s : State), runWords ((absorbCommands S).map encode) s = absorbAll S s

/-! ### Padding -/

/-- R73, R76: the layout of the padded bytes by offset, the length field counting `L` modulo 2^64. -/
def Obligations.PaddingLayout : Prop :=
  ∀ (R : List Byte) (L : Nat),
    (∀ i, i < R.length → (padBuild R L)[i]? = R[i]?) ∧
    (padBuild R L)[R.length]? = some 0x80#8 ∧
    (∀ i, R.length < i → i < padTotal R.length - 8 → (padBuild R L)[i]? = some 0x00#8) ∧
    (∀ m, m < 8 → (padBuild R L)[padTotal R.length - 8 + m]? =
      some (BitVec.ofNat 8 ((8 * L) % 2 ^ 64 / 2 ^ (8 * (7 - m))))) ∧
    (padBuild R L).length = padTotal R.length

/-- R74: the padded length is the least multiple of 64 that is at least `r + 9`. -/
def Obligations.PaddedLength : Prop :=
  ∀ (R : List Byte) (L : Nat),
    (padBuild R L).length % 64 = 0 ∧ R.length + 9 ≤ (padBuild R L).length ∧
    (padBuild R L).length < R.length + 9 + 64 ∧
    (padBuild R L).length = 64 * ((R.length + 8) / 64 + 1) ∧ 64 ≤ (padBuild R L).length

/-- R75: the zero fill, by the rule's formula, and the block counts of a tail the engine can hold (R77,
marked derived). -/
def Obligations.ZeroFillAndBlockCount : Prop :=
  (∀ r : Nat, padZeros r ≤ 63 ∧ (padZeros r : Int) = (55 - (r : Int)) % 64 ∧
    padTotal r = r + 1 + padZeros r + 8) ∧
  (∀ r : Nat, r ≤ 55 → padTotal r = 64) ∧
  (∀ r : Nat, 56 ≤ r → r ≤ 63 → padTotal r = 128)

/-- R80 (marked derived): the padded message is the complete blocks of the message and the padded tail. -/
def Obligations.TailAndWholeAgree : Prop :=
  ∀ M : List Byte,
    padMsg M = M.take (M.length / 64 * 64) ++ padBuild (M.drop (M.length / 64 * 64)) M.length ∧
    (padMsg M).length / 64 = M.length / 64 + padTotal (M.length % 64) / 64 ∧
    (padMsg M).length = (M.length + 9 + 63) / 64 * 64

/-! ### Schedule, rounds, digest -/

/-- R19, R20 (supplied by the spec from general knowledge, log 14): `K` holds the first 32 bits of the
fractional parts of the cube roots of the first 64 primes, `IV` those of the square roots of the first 8.
With `m` the integer part of the root scaled by 2^32, these are the low 32 bits of `m`. -/
def Obligations.ConstantTablesAreRootsOfPrimes : Prop :=
  let primes := (List.range 312).filter (fun p => decide (Nat.Prime p))
  primes.length = 64 ∧
  (∀ t : Fin 64, ∃ m, m ^ 3 ≤ primes.getD t.val 0 * 2 ^ 96 ∧
    primes.getD t.val 0 * 2 ^ 96 < (m + 1) ^ 3 ∧ Config.k[t].toNat = m % 2 ^ 32) ∧
  (∀ i : Fin 8, ∃ m, m ^ 2 ≤ primes.getD i.val 0 * 2 ^ 64 ∧
    primes.getD i.val 0 * 2 ^ 64 < (m + 1) ^ 2 ∧ Config.iv[i].toNat = m % 2 ^ 32)

/-- R8 and R10: word addition wraps; the shift is a division by a power of two, rounded down. -/
def Obligations.AdditionWrapsAndShiftDivides : Prop :=
  (∀ x y : Word, (add32 x y).toNat = (x.toNat + y.toNat) % 2 ^ 32) ∧
  (∀ (x : Word) (n : Nat), 0 < n → n < 32 → (shr x n).toNat = x.toNat / 2 ^ n)

/-- R9: result bit `i` of a rotation is bit `(i + n) mod 32`. -/
def Obligations.RotationBits : Prop :=
  ∀ (x : Word) (n i : Nat), 0 < n → n < 32 → i < 32 →
    (rotr x n).getLsbD i = x.getLsbD ((i + n) % 32)

/-- R12: the big-endian conversions and their inverse. -/
def Obligations.BigEndianConversions : Prop :=
  (∀ b0 b1 b2 b3 : Byte,
    (be32 b0 b1 b2 b3).toNat =
      b0.toNat * 2 ^ 24 + b1.toNat * 2 ^ 16 + b2.toNat * 2 ^ 8 + b3.toNat) ∧
  (∀ w : Word, be32 (tobe32 w)[0] (tobe32 w)[1] (tobe32 w)[2] (tobe32 w)[3] = w) ∧
  (∀ b0 b1 b2 b3 : Byte, tobe32 (be32 b0 b1 b2 b3) = #v[b0, b1, b2, b3]) ∧
  (∀ (v : BitVec 64) (m : Fin 8), (tobe64 v)[m].toNat = v.toNat / 2 ^ (8 * (7 - m.val)) % 256)

/-- R82, R83, R87, R89: the four sigma functions, in terms of Lean's own rotation and shift. -/
def Obligations.SigmaFunctions : Prop :=
  ∀ x : Word,
    ssig0 x = x.rotateRight 7 ^^^ x.rotateRight 18 ^^^ (x >>> 3) ∧
    ssig1 x = x.rotateRight 17 ^^^ x.rotateRight 19 ^^^ (x >>> 10) ∧
    bsig1 x = x.rotateRight 6 ^^^ x.rotateRight 11 ^^^ x.rotateRight 25 ∧
    bsig0 x = x.rotateRight 2 ^^^ x.rotateRight 13 ^^^ x.rotateRight 22

/-- R88, R90: `ch` chooses bit by bit, `maj` takes the value at least two of its inputs hold. -/
def Obligations.ChooseAndMajorityBits : Prop :=
  ∀ (x y z : Word) (i : Nat), i < 32 →
    (ch x y z).getLsbD i = (if x.getLsbD i then y.getLsbD i else z.getLsbD i) ∧
    ((maj x y z).getLsbD i = true ↔
      2 ≤ (x.getLsbD i).toNat + (y.getLsbD i).toNat + (z.getLsbD i).toNat)

/-- R81: `LOADW` splits the block into sixteen big-endian words and touches no other word. -/
def Obligations.LoadwSplitsBlock : Prop :=
  ∀ (B : Block) (W : Schedule),
    (∀ j : Fin 16, (loadw B W)[j.val] =
      be32 B[4 * j.val] B[4 * j.val + 1] B[4 * j.val + 2] B[4 * j.val + 3]) ∧
    (∀ i : Fin 48, (loadw B W)[i.val + 16] = W[i.val + 16])

/-- R84: after `EXPAND` the recurrence holds at every index from 16 on, and `W[0..15]` are unchanged. -/
def Obligations.ExpandRecurrence : Prop :=
  ∀ W : Schedule,
    (∀ j : Fin 16, (expand W)[j.val] = W[j.val]) ∧
    (∀ n : Fin 48, (expand W)[n.val + 16] =
      (expand W)[n.val] + ssig0 (expand W)[n.val + 1] + (expand W)[n.val + 9]
        + ssig1 (expand W)[n.val + 14])

/-- R85, R86 (what `W` held before does not matter): the schedule is a function of the block alone. -/
def Obligations.ScheduleDependsOnBlockAlone : Prop :=
  ∀ (B : Block) (W : Schedule), scheduleInto B W = sched B

/-- R92: one round gives the eight values of the rule, and the document's written order of assignments
gives the same. -/
def Obligations.RoundParallelAndWrittenOrder : Prop :=
  ∀ (k w : Word) (v : Working),
    let t1 := v.h + bsig1 v.e + ch v.e v.f v.g + k + w
    let t2 := bsig0 v.a + maj v.a v.b v.c
    roundWith k w v = ⟨t1 + t2, v.a, v.b, v.c, v.d + t1, v.e, v.f, v.g⟩ ∧
    (let v1 := { v with h := v.g }
     let v2 := { v1 with g := v1.f }
     let v3 := { v2 with f := v2.e }
     let v4 := { v3 with e := v3.d + t1 }
     let v5 := { v4 with d := v4.c }
     let v6 := { v5 with c := v5.b }
     let v7 := { v6 with b := v6.a }
     let v8 := { v7 with a := t1 + t2 }
     roundWith k w v = v8) ∧
    (∀ (W : Schedule) (t : Fin 64), roundAt W v t = roundWith Config.k[t] W[t] v)

/-- R93: the addition of the working variables into the chaining value. -/
def Obligations.AddbackAddsWorking : Prop :=
  ∀ (X : Chain) (v : Working),
    addback X v =
      #v[X[0] + v.a, X[1] + v.b, X[2] + v.c, X[3] + v.d,
         X[4] + v.e, X[5] + v.f, X[6] + v.g, X[7] + v.h]

/-- R94: `COMPRESS` is the 64 rounds in ascending order from the chaining value, added back; the engine
runs it on `H`, and changes nothing but `H` and the scratch `W`, `a .. h` and `t`. -/
def Obligations.CompressRunsRoundsInOrder : Prop :=
  (∀ (X : Chain) (B : Block) (v : Nat → Working),
    v 0 = ⟨X[0], X[1], X[2], X[3], X[4], X[5], X[6], X[7]⟩ →
    (∀ t : Fin 64, v (t.val + 1) = roundAt (expand (loadw B (Vector.replicate 64 0#32))) (v t.val) t) →
    compress X B = addback X (v 64)) ∧
  (∀ (B : Block) (s : State), (compressBlock B s).h = compress s.h B ∧
    (compressBlock B s).len = s.len ∧ (compressBlock B s).buf = s.buf ∧
    (compressBlock B s).phase = s.phase ∧ (compressBlock B s).err = s.err ∧
    (compressBlock B s).cause = s.cause ∧ (compressBlock B s).pbuf = s.pbuf ∧
    (compressBlock B s).j = s.j ∧ (compressBlock B s).pending = s.pending ∧
    (compressBlock B s).response = s.response)

/-- R99: byte `4i + m` of the digest is byte `m`, counted from the most significant, of word `i`. -/
def Obligations.DigestBytes : Prop :=
  ∀ (X : Chain) (i : Fin 8) (m : Fin 4),
    (serialize X)[4 * i.val + m.val] = X[i].extractLsb' (24 - 8 * m.val) 8
end

