-- ==== Sys2Proof/Laws/Datapath.lean ====
section
/-! SUPPORT. How the fixed loops of the datapath are taken apart, and the digest as a sequence of bytes. -/

namespace Sys2Proof.Machine

open Sys2Proof

/-- A fixed loop over `0 .. m-1` gives what any sequence of values gives that starts with the same value
and follows the loop's body. -/
theorem foldl_finRange {α : Type} {m : Nat} (body : α → Fin m → α) (x : Nat → α)
    (hx : ∀ n : Fin m, x (n.val + 1) = body (x n.val) n) :
    (List.finRange m).foldl body (x 0) = x m := by
  have hprefix : ∀ n, n ≤ m → ((List.finRange m).take n).foldl body (x 0) = x n := by
    intro n
    induction n with
    | zero => simp
    | succ n ih =>
      intro hn
      rw [List.take_succ_eq_append_getElem (by simpa using hn), List.foldl_append, ih (by omega)]
      simp [hx ⟨n, hn⟩]
  simpa [List.take_of_length_le] using hprefix m le_rfl

/-- One word of `LOADW` leaves every other word alone. -/
theorem loadWord_ne (B : Block) (W : Schedule) (j : Fin 16) {i : Nat} (hi : i < 64) (hne : j.val ≠ i) :
    (loadWord B W j)[i] = W[i] := by
  simp [loadWord, Vector.getElem_set_ne _ _ hne]

/-- One step of `EXPAND` leaves every other word alone. -/
theorem expandWord_ne (W : Schedule) (n : Fin 48) {i : Nat} (hi : i < 64) (hne : n.val + 16 ≠ i) :
    (expandWord W n)[i] = W[i] := by
  simp [expandWord, Vector.getElem_set_ne _ _ hne]

/-- The bytes of a digest, in order (R99). -/
theorem serialize_toList (X : Chain) :
    (serialize X).toList =
      (tobe32 X[0]).toList ++ (tobe32 X[1]).toList ++ (tobe32 X[2]).toList ++ (tobe32 X[3]).toList
        ++ (tobe32 X[4]).toList ++ (tobe32 X[5]).toList ++ (tobe32 X[6]).toList
        ++ (tobe32 X[7]).toList := by
  simp only [serialize, Vector.toList_append]

end Sys2Proof.Machine
end

