-- ==== Sys2Proof/Laws/State.lean ====
section
/-! SUPPORT. One lemma per field per named update of the state, true by rfl, so that no later proof
unfolds a record update. -/

namespace Sys2Proof.Machine

open Sys2Proof

/-! ### recordFault -/

@[simp] theorem recordFault_h (c : FaultCode) (s : State) : (recordFault c s).h = s.h := rfl
@[simp] theorem recordFault_len (c : FaultCode) (s : State) : (recordFault c s).len = s.len := rfl
@[simp] theorem recordFault_buf (c : FaultCode) (s : State) : (recordFault c s).buf = s.buf := rfl
@[simp] theorem recordFault_phase (c : FaultCode) (s : State) : (recordFault c s).phase = s.phase := rfl
@[simp] theorem recordFault_err (c : FaultCode) (s : State) : (recordFault c s).err = true := rfl
@[simp] theorem recordFault_cause (c : FaultCode) (s : State) : (recordFault c s).cause = if s.err then s.cause else faultCode c := rfl
@[simp] theorem recordFault_wv (c : FaultCode) (s : State) : (recordFault c s).wv = s.wv := rfl
@[simp] theorem recordFault_w (c : FaultCode) (s : State) : (recordFault c s).w = s.w := rfl
@[simp] theorem recordFault_pbuf (c : FaultCode) (s : State) : (recordFault c s).pbuf = s.pbuf := rfl
@[simp] theorem recordFault_t (c : FaultCode) (s : State) : (recordFault c s).t = s.t := rfl
@[simp] theorem recordFault_j (c : FaultCode) (s : State) : (recordFault c s).j = s.j := rfl
@[simp] theorem recordFault_pending (c : FaultCode) (s : State) : (recordFault c s).pending = s.pending := rfl
@[simp] theorem recordFault_response (c : FaultCode) (s : State) : (recordFault c s).response = s.response := rfl

/-! ### respond -/

@[simp] theorem respond_h (r : Response) (s : State) : (respond r s).h = s.h := rfl
@[simp] theorem respond_len (r : Response) (s : State) : (respond r s).len = s.len := rfl
@[simp] theorem respond_buf (r : Response) (s : State) : (respond r s).buf = s.buf := rfl
@[simp] theorem respond_phase (r : Response) (s : State) : (respond r s).phase = s.phase := rfl
@[simp] theorem respond_err (r : Response) (s : State) : (respond r s).err = s.err := rfl
@[simp] theorem respond_cause (r : Response) (s : State) : (respond r s).cause = s.cause := rfl
@[simp] theorem respond_wv (r : Response) (s : State) : (respond r s).wv = s.wv := rfl
@[simp] theorem respond_w (r : Response) (s : State) : (respond r s).w = s.w := rfl
@[simp] theorem respond_pbuf (r : Response) (s : State) : (respond r s).pbuf = s.pbuf := rfl
@[simp] theorem respond_t (r : Response) (s : State) : (respond r s).t = s.t := rfl
@[simp] theorem respond_j (r : Response) (s : State) : (respond r s).j = s.j := rfl
@[simp] theorem respond_pending (r : Response) (s : State) : (respond r s).pending = s.pending := rfl
@[simp] theorem respond_response (r : Response) (s : State) : (respond r s).response = some r := rfl

/-! ### raise -/

@[simp] theorem raise_h (c : FaultCode) (s : State) : (raise c s).h = s.h := rfl
@[simp] theorem raise_len (c : FaultCode) (s : State) : (raise c s).len = s.len := rfl
@[simp] theorem raise_buf (c : FaultCode) (s : State) : (raise c s).buf = s.buf := rfl
@[simp] theorem raise_phase (c : FaultCode) (s : State) : (raise c s).phase = s.phase := rfl
@[simp] theorem raise_err (c : FaultCode) (s : State) : (raise c s).err = true := rfl
@[simp] theorem raise_cause (c : FaultCode) (s : State) : (raise c s).cause = if s.err then s.cause else faultCode c := rfl
@[simp] theorem raise_wv (c : FaultCode) (s : State) : (raise c s).wv = s.wv := rfl
@[simp] theorem raise_w (c : FaultCode) (s : State) : (raise c s).w = s.w := rfl
@[simp] theorem raise_pbuf (c : FaultCode) (s : State) : (raise c s).pbuf = s.pbuf := rfl
@[simp] theorem raise_t (c : FaultCode) (s : State) : (raise c s).t = s.t := rfl
@[simp] theorem raise_j (c : FaultCode) (s : State) : (raise c s).j = s.j := rfl
@[simp] theorem raise_pending (c : FaultCode) (s : State) : (raise c s).pending = s.pending := rfl
@[simp] theorem raise_response (c : FaultCode) (s : State) : (raise c s).response = some (.fault c) := rfl

/-! ### startMessage -/

@[simp] theorem startMessage_h (s : State) : (startMessage s).h = Config.iv := rfl
@[simp] theorem startMessage_len (s : State) : (startMessage s).len = 0#64 := rfl
@[simp] theorem startMessage_buf (s : State) : (startMessage s).buf = s.buf := rfl
@[simp] theorem startMessage_phase (s : State) : (startMessage s).phase = .acc := rfl
@[simp] theorem startMessage_err (s : State) : (startMessage s).err = s.err := rfl
@[simp] theorem startMessage_cause (s : State) : (startMessage s).cause = s.cause := rfl
@[simp] theorem startMessage_wv (s : State) : (startMessage s).wv = s.wv := rfl
@[simp] theorem startMessage_w (s : State) : (startMessage s).w = s.w := rfl
@[simp] theorem startMessage_pbuf (s : State) : (startMessage s).pbuf = s.pbuf := rfl
@[simp] theorem startMessage_t (s : State) : (startMessage s).t = s.t := rfl
@[simp] theorem startMessage_j (s : State) : (startMessage s).j = s.j := rfl
@[simp] theorem startMessage_pending (s : State) : (startMessage s).pending = s.pending := rfl
@[simp] theorem startMessage_response (s : State) : (startMessage s).response = s.response := rfl

/-! ### putByte -/

@[simp] theorem putByte_h (d : Byte) (s : State) : (putByte d s).h = s.h := rfl
@[simp] theorem putByte_len (d : Byte) (s : State) : (putByte d s).len = s.len + 1#64 := rfl
@[simp] theorem putByte_buf (d : Byte) (s : State) : (putByte d s).buf = s.buf.set (fill s) d := rfl
@[simp] theorem putByte_phase (d : Byte) (s : State) : (putByte d s).phase = s.phase := rfl
@[simp] theorem putByte_err (d : Byte) (s : State) : (putByte d s).err = s.err := rfl
@[simp] theorem putByte_cause (d : Byte) (s : State) : (putByte d s).cause = s.cause := rfl
@[simp] theorem putByte_wv (d : Byte) (s : State) : (putByte d s).wv = s.wv := rfl
@[simp] theorem putByte_w (d : Byte) (s : State) : (putByte d s).w = s.w := rfl
@[simp] theorem putByte_pbuf (d : Byte) (s : State) : (putByte d s).pbuf = s.pbuf := rfl
@[simp] theorem putByte_t (d : Byte) (s : State) : (putByte d s).t = s.t := rfl
@[simp] theorem putByte_j (d : Byte) (s : State) : (putByte d s).j = s.j := rfl
@[simp] theorem putByte_pending (d : Byte) (s : State) : (putByte d s).pending = s.pending := rfl
@[simp] theorem putByte_response (d : Byte) (s : State) : (putByte d s).response = s.response := rfl

/-! ### idle -/

@[simp] theorem idle_h (s : State) : (idle s).h = s.h := rfl
@[simp] theorem idle_len (s : State) : (idle s).len = s.len := rfl
@[simp] theorem idle_buf (s : State) : (idle s).buf = s.buf := rfl
@[simp] theorem idle_phase (s : State) : (idle s).phase = s.phase := rfl
@[simp] theorem idle_err (s : State) : (idle s).err = s.err := rfl
@[simp] theorem idle_cause (s : State) : (idle s).cause = s.cause := rfl
@[simp] theorem idle_wv (s : State) : (idle s).wv = s.wv := rfl
@[simp] theorem idle_w (s : State) : (idle s).w = s.w := rfl
@[simp] theorem idle_pbuf (s : State) : (idle s).pbuf = s.pbuf := rfl
@[simp] theorem idle_t (s : State) : (idle s).t = s.t := rfl
@[simp] theorem idle_j (s : State) : (idle s).j = s.j := rfl
@[simp] theorem idle_pending (s : State) : (idle s).pending = s.pending := rfl
@[simp] theorem idle_response (s : State) : (idle s).response = none := rfl

/-! ### presentNext -/

@[simp] theorem presentNext_h (x : HostInput) (s : State) : (presentNext x s).h = s.h := rfl
@[simp] theorem presentNext_len (x : HostInput) (s : State) : (presentNext x s).len = s.len := rfl
@[simp] theorem presentNext_buf (x : HostInput) (s : State) : (presentNext x s).buf = s.buf := rfl
@[simp] theorem presentNext_phase (x : HostInput) (s : State) : (presentNext x s).phase = s.phase := rfl
@[simp] theorem presentNext_err (x : HostInput) (s : State) : (presentNext x s).err = s.err := rfl
@[simp] theorem presentNext_cause (x : HostInput) (s : State) : (presentNext x s).cause = s.cause := rfl
@[simp] theorem presentNext_wv (x : HostInput) (s : State) : (presentNext x s).wv = s.wv := rfl
@[simp] theorem presentNext_w (x : HostInput) (s : State) : (presentNext x s).w = s.w := rfl
@[simp] theorem presentNext_pbuf (x : HostInput) (s : State) : (presentNext x s).pbuf = s.pbuf := rfl
@[simp] theorem presentNext_t (x : HostInput) (s : State) : (presentNext x s).t = s.t := rfl
@[simp] theorem presentNext_j (x : HostInput) (s : State) : (presentNext x s).j = s.j := rfl
@[simp] theorem presentNext_pending (x : HostInput) (s : State) : (presentNext x s).pending = x :: s.pending := rfl
@[simp] theorem presentNext_response (x : HostInput) (s : State) : (presentNext x s).response = s.response := rfl

/-! ### loadPadding -/

@[simp] theorem loadPadding_h (P : List Byte) (s : State) : (loadPadding P s).h = s.h := rfl
@[simp] theorem loadPadding_len (P : List Byte) (s : State) : (loadPadding P s).len = s.len := rfl
@[simp] theorem loadPadding_buf (P : List Byte) (s : State) : (loadPadding P s).buf = s.buf := rfl
@[simp] theorem loadPadding_phase (P : List Byte) (s : State) : (loadPadding P s).phase = s.phase := rfl
@[simp] theorem loadPadding_err (P : List Byte) (s : State) : (loadPadding P s).err = s.err := rfl
@[simp] theorem loadPadding_cause (P : List Byte) (s : State) : (loadPadding P s).cause = s.cause := rfl
@[simp] theorem loadPadding_wv (P : List Byte) (s : State) : (loadPadding P s).wv = s.wv := rfl
@[simp] theorem loadPadding_w (P : List Byte) (s : State) : (loadPadding P s).w = s.w := rfl
@[simp] theorem loadPadding_pbuf (P : List Byte) (s : State) : (loadPadding P s).pbuf = memWrite s.pbuf 0 P := rfl
@[simp] theorem loadPadding_t (P : List Byte) (s : State) : (loadPadding P s).t = s.t := rfl
@[simp] theorem loadPadding_j (P : List Byte) (s : State) : (loadPadding P s).j = s.j := rfl
@[simp] theorem loadPadding_pending (P : List Byte) (s : State) : (loadPadding P s).pending = s.pending := rfl
@[simp] theorem loadPadding_response (P : List Byte) (s : State) : (loadPadding P s).response = s.response := rfl

/-! ### forgetBuf -/

@[simp] theorem forgetBuf_h (s : State) : (forgetBuf s).h = s.h := rfl
@[simp] theorem forgetBuf_len (s : State) : (forgetBuf s).len = s.len := rfl
@[simp] theorem forgetBuf_buf (s : State) : (forgetBuf s).buf = [] := rfl
@[simp] theorem forgetBuf_phase (s : State) : (forgetBuf s).phase = s.phase := rfl
@[simp] theorem forgetBuf_err (s : State) : (forgetBuf s).err = s.err := rfl
@[simp] theorem forgetBuf_cause (s : State) : (forgetBuf s).cause = s.cause := rfl
@[simp] theorem forgetBuf_wv (s : State) : (forgetBuf s).wv = s.wv := rfl
@[simp] theorem forgetBuf_w (s : State) : (forgetBuf s).w = s.w := rfl
@[simp] theorem forgetBuf_pbuf (s : State) : (forgetBuf s).pbuf = s.pbuf := rfl
@[simp] theorem forgetBuf_t (s : State) : (forgetBuf s).t = s.t := rfl
@[simp] theorem forgetBuf_j (s : State) : (forgetBuf s).j = s.j := rfl
@[simp] theorem forgetBuf_pending (s : State) : (forgetBuf s).pending = s.pending := rfl
@[simp] theorem forgetBuf_response (s : State) : (forgetBuf s).response = s.response := rfl

/-! ### forgetBlockScratch -/

@[simp] theorem forgetBlockScratch_h (s : State) : (forgetBlockScratch s).h = s.h := rfl
@[simp] theorem forgetBlockScratch_len (s : State) : (forgetBlockScratch s).len = s.len := rfl
@[simp] theorem forgetBlockScratch_buf (s : State) : (forgetBlockScratch s).buf = s.buf := rfl
@[simp] theorem forgetBlockScratch_phase (s : State) : (forgetBlockScratch s).phase = s.phase := rfl
@[simp] theorem forgetBlockScratch_err (s : State) : (forgetBlockScratch s).err = s.err := rfl
@[simp] theorem forgetBlockScratch_cause (s : State) : (forgetBlockScratch s).cause = s.cause := rfl
@[simp] theorem forgetBlockScratch_wv (s : State) : (forgetBlockScratch s).wv = none := rfl
@[simp] theorem forgetBlockScratch_w (s : State) : (forgetBlockScratch s).w = none := rfl
@[simp] theorem forgetBlockScratch_pbuf (s : State) : (forgetBlockScratch s).pbuf = s.pbuf := rfl
@[simp] theorem forgetBlockScratch_t (s : State) : (forgetBlockScratch s).t = none := rfl
@[simp] theorem forgetBlockScratch_j (s : State) : (forgetBlockScratch s).j = s.j := rfl
@[simp] theorem forgetBlockScratch_pending (s : State) : (forgetBlockScratch s).pending = s.pending := rfl
@[simp] theorem forgetBlockScratch_response (s : State) : (forgetBlockScratch s).response = s.response := rfl

/-! ### forgetPadding -/

@[simp] theorem forgetPadding_h (s : State) : (forgetPadding s).h = s.h := rfl
@[simp] theorem forgetPadding_len (s : State) : (forgetPadding s).len = s.len := rfl
@[simp] theorem forgetPadding_buf (s : State) : (forgetPadding s).buf = s.buf := rfl
@[simp] theorem forgetPadding_phase (s : State) : (forgetPadding s).phase = s.phase := rfl
@[simp] theorem forgetPadding_err (s : State) : (forgetPadding s).err = s.err := rfl
@[simp] theorem forgetPadding_cause (s : State) : (forgetPadding s).cause = s.cause := rfl
@[simp] theorem forgetPadding_wv (s : State) : (forgetPadding s).wv = s.wv := rfl
@[simp] theorem forgetPadding_w (s : State) : (forgetPadding s).w = s.w := rfl
@[simp] theorem forgetPadding_pbuf (s : State) : (forgetPadding s).pbuf = [] := rfl
@[simp] theorem forgetPadding_t (s : State) : (forgetPadding s).t = s.t := rfl
@[simp] theorem forgetPadding_j (s : State) : (forgetPadding s).j = none := rfl
@[simp] theorem forgetPadding_pending (s : State) : (forgetPadding s).pending = s.pending := rfl
@[simp] theorem forgetPadding_response (s : State) : (forgetPadding s).response = s.response := rfl

/-! ### runBlock -/

@[simp] theorem runBlock_h (B : Block) (s : State) : (runBlock B s).h = addback s.h (rounds (scheduleInto B (scheduleCells s)) (wvInit s.h)) := rfl
@[simp] theorem runBlock_len (B : Block) (s : State) : (runBlock B s).len = s.len := rfl
@[simp] theorem runBlock_buf (B : Block) (s : State) : (runBlock B s).buf = s.buf := rfl
@[simp] theorem runBlock_phase (B : Block) (s : State) : (runBlock B s).phase = s.phase := rfl
@[simp] theorem runBlock_err (B : Block) (s : State) : (runBlock B s).err = s.err := rfl
@[simp] theorem runBlock_cause (B : Block) (s : State) : (runBlock B s).cause = s.cause := rfl
@[simp] theorem runBlock_wv (B : Block) (s : State) : (runBlock B s).wv = some (rounds (scheduleInto B (scheduleCells s)) (wvInit s.h)) := rfl
@[simp] theorem runBlock_w (B : Block) (s : State) : (runBlock B s).w = some (scheduleInto B (scheduleCells s)) := rfl
@[simp] theorem runBlock_pbuf (B : Block) (s : State) : (runBlock B s).pbuf = s.pbuf := rfl
@[simp] theorem runBlock_t (B : Block) (s : State) : (runBlock B s).t = some 63 := rfl
@[simp] theorem runBlock_j (B : Block) (s : State) : (runBlock B s).j = s.j := rfl
@[simp] theorem runBlock_pending (B : Block) (s : State) : (runBlock B s).pending = s.pending := rfl
@[simp] theorem runBlock_response (B : Block) (s : State) : (runBlock B s).response = s.response := rfl

/-! ### compressBlock -/

@[simp] theorem compressBlock_h (B : Block) (s : State) : (compressBlock B s).h = addback s.h (rounds (scheduleInto B (scheduleCells s)) (wvInit s.h)) := rfl
@[simp] theorem compressBlock_len (B : Block) (s : State) : (compressBlock B s).len = s.len := rfl
@[simp] theorem compressBlock_buf (B : Block) (s : State) : (compressBlock B s).buf = s.buf := rfl
@[simp] theorem compressBlock_phase (B : Block) (s : State) : (compressBlock B s).phase = s.phase := rfl
@[simp] theorem compressBlock_err (B : Block) (s : State) : (compressBlock B s).err = s.err := rfl
@[simp] theorem compressBlock_cause (B : Block) (s : State) : (compressBlock B s).cause = s.cause := rfl
@[simp] theorem compressBlock_wv (B : Block) (s : State) : (compressBlock B s).wv = none := rfl
@[simp] theorem compressBlock_w (B : Block) (s : State) : (compressBlock B s).w = none := rfl
@[simp] theorem compressBlock_pbuf (B : Block) (s : State) : (compressBlock B s).pbuf = s.pbuf := rfl
@[simp] theorem compressBlock_t (B : Block) (s : State) : (compressBlock B s).t = none := rfl
@[simp] theorem compressBlock_j (B : Block) (s : State) : (compressBlock B s).j = s.j := rfl
@[simp] theorem compressBlock_pending (B : Block) (s : State) : (compressBlock B s).pending = s.pending := rfl
@[simp] theorem compressBlock_response (B : Block) (s : State) : (compressBlock B s).response = s.response := rfl

/-! ### applyReset and takeInput -/

theorem applyReset_h (s : State) : (applyReset s).h = State.reset.h := rfl
theorem applyReset_len (s : State) : (applyReset s).len = State.reset.len := rfl
theorem applyReset_buf (s : State) : (applyReset s).buf = State.reset.buf := rfl
theorem applyReset_phase (s : State) : (applyReset s).phase = State.reset.phase := rfl
theorem applyReset_err (s : State) : (applyReset s).err = State.reset.err := rfl
theorem applyReset_cause (s : State) : (applyReset s).cause = State.reset.cause := rfl
theorem applyReset_wv (s : State) : (applyReset s).wv = State.reset.wv := rfl
theorem applyReset_w (s : State) : (applyReset s).w = State.reset.w := rfl
theorem applyReset_pbuf (s : State) : (applyReset s).pbuf = State.reset.pbuf := rfl
theorem applyReset_t (s : State) : (applyReset s).t = State.reset.t := rfl
theorem applyReset_j (s : State) : (applyReset s).j = State.reset.j := rfl
theorem applyReset_pending (s : State) : (applyReset s).pending = s.pending := rfl
theorem applyReset_response (s : State) : (applyReset s).response = State.reset.response := rfl

theorem takeInput_nil (s : State) (hp : s.pending = []) : takeInput s = (none, s) := by
  simp [takeInput, hp]

theorem takeInput_cons (s : State) (x : HostInput) (rest : List HostInput)
    (hp : s.pending = x :: rest) : takeInput s = (some x, { s with pending := rest }) := by
  simp [takeInput, hp]

theorem takeInput_presentNext (s : State) (x : HostInput) :
    takeInput (presentNext x s) = (some x, s) := rfl

/-! ### FILL is a view of LEN -/

theorem fill_lt (s : State) : fill s < 64 := Nat.mod_lt _ (by decide)

/-- `FILL` depends on `LEN` alone. -/
theorem fill_congr {s t : State} (hl : t.len = s.len) : fill t = fill s := by
  simp [fill, hl]

/-- Counting a byte moves `FILL` on by one, around the block (R23, R106: also where `LEN` wraps). -/
theorem fill_putByte (d : Byte) (s : State) : fill (putByte d s) = (fill s + 1) % 64 := by
  simp only [fill, putByte_len, BitVec.toNat_add, BitVec.toNat_ofNat]
  omega

end Sys2Proof.Machine
end

