-- ==== Sys2Proof/Laws/Store.lean ====
section
/-! SUPPORT. What the operations on a byte store do: reading after writing, the canonical form, and when
`memRead` answers. -/

namespace Sys2Proof.Machine

open Sys2Proof

@[simp] theorem Store.get?_nil (a : Nat) : Store.get? [] a = none := rfl

/-- A read after a write: the byte written at its offset, every other offset as before. -/
theorem Store.get?_set (S : Store) (a b : Nat) (v : Byte) :
    (Store.set S a v).get? b = if b = a then some v else S.get? b := by
  induction S with
  | nil => by_cases hb : a = b <;> simp [Store.set, Store.get?, hb, eq_comm]
  | cons cell rest ih =>
    obtain ⟨c, w⟩ := cell
    by_cases hlt : a < c
    · simp only [Store.set, if_pos hlt, Store.get?]
      by_cases hb : b = a
      · simp [hb]
      · rw [if_neg (Ne.symm hb), if_neg hb]
    · by_cases hca : c = a
      · subst hca
        simp only [Store.set, if_neg hlt, if_true, Store.get?]
        by_cases hb : b = c
        · simp [hb]
        · rw [if_neg (Ne.symm hb), if_neg hb, if_neg (Ne.symm hb)]
      · simp only [Store.set, if_neg hlt, if_neg hca, Store.get?, ih]
        by_cases hcb : c = b
        · subst hcb
          simp [hca]
        · simp [hcb]

theorem Store.get?_set_self (S : Store) (a : Nat) (v : Byte) : (Store.set S a v).get? a = some v := by
  simp [Store.get?_set]

theorem Store.get?_set_ne (S : Store) {a b : Nat} (v : Byte) (hb : b ≠ a) :
    (Store.set S a v).get? b = S.get? b := by
  simp [Store.get?_set, hb]

/-- A canonical store holds no value at or past its size. -/
theorem Store.get?_of_wfFrom {size a : Nat} (ha : size ≤ a) :
    ∀ {lo : Nat} {S : Store}, Store.wfFrom size lo S = true → S.get? a = none
  | _, [], _ => rfl
  | _, (b, _) :: rest, hs => by
    simp only [Store.wfFrom, Bool.and_eq_true, decide_eq_true_eq] at hs
    rw [Store.get?, if_neg (by omega), Store.get?_of_wfFrom ha hs.2]

theorem Store.wfFrom_mono {size lo lo' : Nat} (hlo : lo' ≤ lo) :
    ∀ {S : Store}, Store.wfFrom size lo S = true → Store.wfFrom size lo' S = true
  | [], _ => rfl
  | (a, v) :: rest, hs => by
    simp only [Store.wfFrom, Bool.and_eq_true, decide_eq_true_eq] at hs ⊢
    exact ⟨⟨hlo.trans hs.1.1, hs.1.2⟩, hs.2⟩

theorem Store.set_wfFrom {size a : Nat} (v : Byte) (ha : a < size) :
    ∀ {lo : Nat} {S : Store}, lo ≤ a → Store.wfFrom size lo S = true →
      Store.wfFrom size lo (Store.set S a v) = true
  | lo, [], hlo, _ => by simp [Store.set, Store.wfFrom, hlo, ha]
  | lo, (b, w) :: rest, hlo, hs => by
    simp only [Store.wfFrom, Bool.and_eq_true, decide_eq_true_eq] at hs
    unfold Store.set
    split
    · next hlt =>
      simp only [Store.wfFrom, Bool.and_eq_true, decide_eq_true_eq]
      exact ⟨⟨hlo, ha⟩, ⟨hlt, hs.1.2⟩, hs.2⟩
    · split
      · next hba =>
        subst hba
        simp only [Store.wfFrom, Bool.and_eq_true, decide_eq_true_eq]
        exact ⟨⟨hlo, ha⟩, hs.2⟩
      · next hnlt hne =>
        simp only [Store.wfFrom, Bool.and_eq_true, decide_eq_true_eq]
        exact ⟨hs.1, Store.set_wfFrom v ha (by omega) hs.2⟩

/-- A write keeps the canonical form. -/
theorem Store.set_wf {size a : Nat} {S : Store} (v : Byte) (ha : a < size) (hs : S.wf size = true) :
    (Store.set S a v).wf size = true :=
  Store.set_wfFrom v ha (Nat.zero_le a) hs

/-- `MemWrite` keeps the canonical form of a store that all of its bytes fit into. -/
theorem memWrite_wf {size : Nat} :
    ∀ {v : List Byte} {off : Nat} {S : Store}, off + v.length ≤ size → S.wf size = true →
      (memWrite S off v).wf size = true
  | [], _, _, _, hs => hs
  | b :: rest, off, S, hfit, hs => by
    simp only [List.length_cons] at hfit
    rw [memWrite]
    exact memWrite_wf (v := rest) (by omega) (Store.set_wf b (by omega) hs)

/-- What is read after a `MemWrite`. -/
theorem memWrite_get? :
    ∀ (v : List Byte) (off : Nat) (S : Store) (a : Nat),
      (memWrite S off v).get? a =
        if off ≤ a ∧ a < off + v.length then v[a - off]? else S.get? a
  | [], off, S, a => by
    have hno : ¬ (off ≤ a ∧ a < off) := by omega
    simp [memWrite, hno]
  | b :: rest, off, S, a => by
    rw [memWrite, memWrite_get? rest (off + 1) (S.set off b) a, Store.get?_set]
    by_cases hoff : a = off
    · subst hoff
      simp
    · by_cases hin : off ≤ a ∧ a < off + (b :: rest).length
      · have hin' : off + 1 ≤ a ∧ a < off + 1 + rest.length := by
          simp only [List.length_cons] at hin
          omega
        have hidx : a - off = (a - (off + 1)) + 1 := by omega
        rw [if_pos hin, if_pos hin', hidx, List.getElem?_cons_succ]
      · have hin' : ¬ (off + 1 ≤ a ∧ a < off + 1 + rest.length) := by
          simp only [List.length_cons] at hin
          omega
        rw [if_neg hin, if_neg hin', if_neg hoff]

/-- `MemRead` answers `v` exactly if the store holds `v`, byte for byte. -/
theorem memRead_eq_some (S : Store) (off : Nat) :
    ∀ (n : Nat) (v : Vector Byte n),
      memRead S off n = some v ↔ ∀ (i : Nat) (hi : i < n), S.get? (off + i) = some v[i]
  | 0, v => by simp [memRead]
  | n + 1, v => by
    have ih := memRead_eq_some S off n v.pop
    unfold memRead
    constructor
    · intro hr
      split at hr
      · next bytes b hbytes hb =>
        obtain rfl : bytes.push b = v := by simpa using hr
        intro i hi
        by_cases hin : i < n
        · have := (memRead_eq_some S off n bytes).1 hbytes i hin
          simp [this, hin]
        · obtain rfl : i = n := by omega
          simp [hb]
      · cases hr
    · intro hr
      have hbytes := ih.2 (fun i hi => by rw [hr i (by omega)]; simp)
      rw [hbytes, hr n (by omega)]
      simp only [Option.some.injEq]
      ext i hi
      by_cases hin : i < n
      · simp [hin]
      · obtain rfl : i = n := by omega
        simp

/-- `MemRead` answers exactly if every byte it reads holds a value. -/
theorem memRead_isSome (S : Store) (off n : Nat) :
    (memRead S off n).isSome = true ↔ ∀ i, i < n → (S.get? (off + i)).isSome = true := by
  constructor
  · intro hr i hi
    obtain ⟨v, hv⟩ := Option.isSome_iff_exists.1 hr
    simp [(memRead_eq_some S off n v).1 hv i hi]
  · intro hall
    have hv : memRead S off n =
        some (Vector.ofFn fun i : Fin n => (S.get? (off + i.val)).get (hall i.val i.isLt)) :=
      (memRead_eq_some S off n _).2 (fun i hi => by simp)
    simp [hv]

/-- `MemRead` sees only the offsets it reads. -/
theorem memRead_congr {S S' : Store} {off n : Nat}
    (hag : ∀ i, i < n → S.get? (off + i) = S'.get? (off + i)) :
    memRead S off n = memRead S' off n := by
  induction n with
  | zero => rfl
  | succ n ih =>
    unfold memRead
    rw [ih (fun i hi => hag i (by omega)), hag n (by omega)]

/-- What `MemRead` answers, as a byte sequence. -/
theorem memRead_toList {S : Store} {off n : Nat} {R : List Byte} :
    (memRead S off n).map Vector.toList = some R ↔
      R.length = n ∧ ∀ i, i < n → S.get? (off + i) = R[i]? := by
  constructor
  · intro hm
    obtain ⟨v, hv, rfl⟩ := Option.map_eq_some_iff.1 hm
    refine ⟨by simp, fun i hi => ?_⟩
    rw [(memRead_eq_some S off n v).1 hv i hi]
    simp [hi]
  · rintro ⟨rfl, hall⟩
    have hv : memRead S off R.length = some ⟨R.toArray, by simp⟩ := by
      rw [memRead_eq_some]
      intro i hi
      simp [hall i hi, hi]
    simp [hv]

end Sys2Proof.Machine
end

