-- ==== Sys2Proof/Laws/Ops.lean ====
section
/-! SUPPORT. One lemma per shared operation, per meaning and for the step, saying once everything it can do
when it answers a next state. Later proofs cite these and unfold no meaning. -/

namespace Sys2Proof.Machine

open Sys2Proof

/-! ### Padding sizes -/

theorem padTotal_eq (r : Nat) : padTotal r = 64 * ((r + 8) / 64 + 1) := by
  unfold padTotal; omega

theorem padTotal_ge (r : Nat) : r + 9 ≤ padTotal r := by
  unfold padTotal; omega

@[simp] theorem padBuild_length (R : List Byte) (L : Nat) :
    (padBuild R L).length = padTotal R.length := by
  have hge := padTotal_ge R.length
  simp only [padBuild, List.length_append, List.length_cons, List.length_nil, List.length_replicate,
    Vector.length_toList, padZeros]
  omega

/-- The tail of a block pads to one block or two. -/
theorem padTotal_of_lt {r : Nat} (hr : r < 64) : padTotal r = if r ≤ 55 then 64 else 128 := by
  unfold padTotal; split <;> omega

/-! ### The final blocks -/

/-- A final block that answers has read its 64 bytes of `PBUF` and compressed them. -/
theorem finalBlock_cases {j : Nat} {s t : State} (hf : finalBlock j s = some t) :
    ∃ B, memRead s.pbuf (64 * j) 64 = some B ∧ t = { compressBlock B s with j := some (Fin.ofNat 2 j) } := by
  unfold finalBlock at hf
  split at hf
  · cases hf
  · next B hB => exact ⟨B, hB, by simpa using hf.symm⟩

theorem finalBlock_of_read {j : Nat} {s : State} {B : Block} (hB : memRead s.pbuf (64 * j) 64 = some B) :
    finalBlock j s = some { compressBlock B s with j := some (Fin.ofNat 2 j) } := by
  unfold finalBlock
  rw [hB]

theorem finalBlocks_succ {n : Nat} {s u : State} (hu : finalBlocks n s = some u) :
    finalBlocks (n + 1) s = finalBlock n u := by
  rw [finalBlocks, hu]

/-- The final blocks write `H`, the word scratch and `j`, and nothing else. -/
theorem finalBlocks_frame : ∀ {n : Nat} {s t : State}, finalBlocks n s = some t →
    t.len = s.len ∧ t.buf = s.buf ∧ t.phase = s.phase ∧ t.err = s.err ∧ t.cause = s.cause ∧
      t.pbuf = s.pbuf ∧ t.pending = s.pending ∧ t.response = s.response
  | 0, s, t, hf => by
    obtain rfl : s = t := by simpa [finalBlocks] using hf
    simp
  | n + 1, s, t, hf => by
    unfold finalBlocks at hf
    split at hf
    · cases hf
    · next u hu =>
      obtain ⟨B, -, rfl⟩ := finalBlock_cases hf
      simpa using finalBlocks_frame hu

/-- After at least one final block the word scratch holds no value (R30). -/
theorem finalBlocks_scratch {n : Nat} {s t : State} (hn : n ≠ 0) (hf : finalBlocks n s = some t) :
    t.wv = none ∧ t.w = none ∧ t.t = none := by
  obtain ⟨n, rfl⟩ := Nat.exists_eq_succ_of_ne_zero hn
  unfold finalBlocks at hf
  split at hf
  · cases hf
  · obtain ⟨B, -, rfl⟩ := finalBlock_cases hf
    exact ⟨rfl, rfl, rfl⟩

/-- There is at least one final block. -/
theorem padTotal_blocks_ne_zero (r : Nat) : padTotal r / 64 ≠ 0 := by
  rw [padTotal_eq]; omega

/-- The final blocks answer if `PBUF` holds all of their bytes. -/
theorem finalBlocks_complete : ∀ {n : Nat} {s : State},
    (∀ a, a < 64 * n → (s.pbuf.get? a).isSome = true) → ∃ t, finalBlocks n s = some t
  | 0, s, _ => ⟨s, rfl⟩
  | n + 1, s, hall => by
    obtain ⟨u, hu⟩ := finalBlocks_complete (n := n) (s := s) (fun a ha => hall a (by omega))
    have hp : u.pbuf = s.pbuf := (finalBlocks_frame hu).2.2.2.2.2.1
    obtain ⟨B, hB⟩ := Option.isSome_iff_exists.1
      ((memRead_isSome u.pbuf (64 * n) 64).2 (fun i hi => hp ▸ hall (64 * n + i) (by omega)))
    exact ⟨_, (finalBlocks_succ hu).trans (finalBlock_of_read hB)⟩

/-- After the padding is loaded, `PBUF` holds it. -/
theorem loadPadding_get? (P : List Byte) (s : State) (a : Nat) :
    (loadPadding P s).pbuf.get? a = if a < P.length then P[a]? else s.pbuf.get? a := by
  simp [memWrite_get?]

/-! ### The commands -/

theorem exec_new (s : State) : exec .new s = .next (respond .ok (forgetBuf (startMessage s))) := rfl

/-- `ABSORB8` that answers has faulted, stored a byte, or stored a byte and compressed the block. -/
theorem execAbsorb8_cases {d : Byte} {s t : State} (he : exec (.absorb8 d) s = .next t) :
    (s.phase = .fin ∧ t = raise .usageFault s) ∨
    (s.phase = .acc ∧ fill s ≠ 63 ∧ t = respond .ok (putByte d s)) ∨
    (s.phase = .acc ∧ fill s = 63 ∧ ∃ B, memRead (putByte d s).buf 0 64 = some B ∧
      t = respond .ok (forgetBuf (compressBlock B (putByte d s)))) := by
  simp only [exec, execAbsorb8] at he
  split at he
  · next hp => exact .inl ⟨hp, by cases he; rfl⟩
  · next hp =>
    split at he
    · next hf =>
      split at he
      · cases he
      · next B hB => exact .inr (.inr ⟨hp, hf, B, hB, by cases he; rfl⟩)
    · next hf => exact .inr (.inl ⟨hp, hf, by cases he; rfl⟩)

/-- `FINALIZE` that answers has presented the digest it held, or padded the tail and compressed it. -/
theorem execFinalize_cases {s t : State} (he : exec .finalize s = .next t) :
    (s.phase = .fin ∧ t = respond (.digest (serialize s.h)) s) ∨
    (s.phase = .acc ∧ ∃ (R : Vector Byte (fill s)) (u : State), memRead s.buf 0 (fill s) = some R ∧
      finalBlocks (padTotal (fill s) / 64) (loadPadding (padBuild R.toList s.len.toNat) s) = some u ∧
      t = respond (.digest (serialize u.h)) (forgetPadding { u with phase := .fin })) := by
  simp only [exec, execFinalize] at he
  split at he
  · next hp => exact .inl ⟨hp, by cases he; rfl⟩
  · next hp =>
    split at he
    · cases he
    · next R hR =>
      split at he
      · cases he
      · next u hu =>
        refine .inr ⟨hp, R, u, hR, ?_, by cases he; rfl⟩
        simpa using hu

theorem exec_absorb8_fin {s : State} (d : Byte) (hp : s.phase = .fin) :
    exec (.absorb8 d) s = .next (raise .usageFault s) := by
  simp only [exec, execAbsorb8, hp]

theorem exec_absorb8_store {s : State} (d : Byte) (hp : s.phase = .acc) (hf : fill s ≠ 63) :
    exec (.absorb8 d) s = .next (respond .ok (putByte d s)) := by
  simp only [exec, execAbsorb8, hp, if_neg hf]

theorem exec_absorb8_block {s : State} {d : Byte} {B : Block} (hp : s.phase = .acc)
    (hf : fill s = 63) (hB : memRead (putByte d s).buf 0 64 = some B) :
    exec (.absorb8 d) s = .next (respond .ok (forgetBuf (compressBlock B (putByte d s)))) := by
  simp only [exec, execAbsorb8, hp, if_pos hf, hB]

theorem exec_finalize_fin {s : State} (hp : s.phase = .fin) :
    exec .finalize s = .next (respond (.digest (serialize s.h)) s) := by
  simp only [exec, execFinalize, hp]

theorem exec_finalize_acc {s u : State} {R : List Byte} (hp : s.phase = .acc)
    (hR : (memRead s.buf 0 (fill s)).map Vector.toList = some R)
    (hu : finalBlocks (padTotal (fill s) / 64) (loadPadding (padBuild R s.len.toNat) s) = some u) :
    exec .finalize s = .next (respond (.digest (serialize u.h)) (forgetPadding { u with phase := .fin })) := by
  obtain ⟨V, hV, rfl⟩ := Option.map_eq_some_iff.1 hR
  simp only [exec, execFinalize, hp, hV]
  rw [padBuild_length, Vector.length_toList, hu]

/-! ### The step -/

/-- What a word does. -/
theorem execWord_of_ok {cw : CommandWord} {i : Instr} (s : State) (hd : decode cw = .ok i) :
    execWord cw s = exec i s := by
  simp [execWord, hd]

theorem execWord_of_error {cw : CommandWord} {r : Reserved} (s : State) (hd : decode cw = .error r) :
    execWord cw s = .next (raise .illegalCommand s) := by
  simp [execWord, hd, executeReserved]

/-- A step is an idle one, a reset, or the execution of the word the host presents next. -/
theorem step_eq (s : State) :
    (s.pending = [] ∧ step s = .next (idle s)) ∨
    (∃ rest, s.pending = .reset :: rest ∧ step s = .next (applyReset { s with pending := rest })) ∨
    (∃ cw rest, s.pending = .command cw :: rest ∧
      step s = execWord cw { s with pending := rest }) := by
  unfold step
  cases hp : s.pending with
  | nil => exact .inl ⟨rfl, by rw [takeInput_nil s hp]⟩
  | cons x rest =>
    rw [takeInput_cons s x rest hp]
    cases x with
    | reset => exact .inr (.inl ⟨rest, rfl, rfl⟩)
    | command cw => exact .inr (.inr ⟨cw, rest, rfl, rfl⟩)

end Sys2Proof.Machine
end

