-- ==== Sys2Proof/Laws/PerInstr.lean ====
section
/-! SUPPORT. Facts about every command as syntax, one lemma per constructor. -/

namespace Sys2Proof.Laws

open Sys2Proof

/-- The word of a command is a defined word: it meets every check of R52. -/
def EncodesDefined.Statement (i : Instr) : Prop := (fields (encode i)).wf = true

theorem fields_pack (c : C10) : fields (pack c) = c := by
  obtain ⟨op, imm8⟩ := c
  simp only [fields, pack, C10.mk.injEq]
  constructor
  · exact BitVec.extractLsb'_append_eq_left
  · exact BitVec.extractLsb'_append_eq_right

theorem EncodesDefined.new : EncodesDefined.Statement .new := by
  unfold EncodesDefined.Statement; decide

theorem EncodesDefined.absorb8 (d : Byte) : EncodesDefined.Statement (.absorb8 d) := by
  unfold EncodesDefined.Statement encode
  rw [fields_pack]
  rfl

theorem EncodesDefined.finalize : EncodesDefined.Statement .finalize := by
  unfold EncodesDefined.Statement; decide

end Sys2Proof.Laws
end

