-- ==== Sys2Proof/Tests/Slice0.lean ====
section
/-! SUPPORT. The model's own tests. Every expected value is from the spec: the tables and vectors of
95_test_vectors.md (V-...), the examples of the rules, or the words of the opcode map R51 written out
bit by bit. The last part shows, for each obligation with hypotheses, values that meet them. -/

namespace Sys2Proof.Tests

open Sys2Proof Sys2Proof.Machine

/-! ### Well-formed words (R52): a term for each check, which the check refuses -/

theorem test_wf_refuses_opcode_three : ({ op := 3#2, imm8 := 0#8 } : C10).opDefined = false := by decide
theorem test_wf_refuses_new_operand : ({ op := 0#2, imm8 := 1#8 } : C10).newImmZero = false := by decide
theorem test_wf_refuses_finalize_operand :
    ({ op := 2#2, imm8 := 0xff#8 } : C10).finalizeImmZero = false := by decide
theorem test_wf_refuses_all_three :
    ({ op := 3#2, imm8 := 0#8 } : C10).wf = false ∧ ({ op := 0#2, imm8 := 1#8 } : C10).wf = false ∧
      ({ op := 2#2, imm8 := 0xff#8 } : C10).wf = false := by decide

/-! ### Decoding (V-D60, R51) -/

/-- `0000000000` is `NEW`. -/
theorem test_decode_new : decode 0b0000000000#10 = .ok .new := by rfl
/-- `01dddddddd` with `d = 0110 0001` is `ABSORB8 0x61`. -/
theorem test_decode_absorb8 : decode 0b0101100001#10 = .ok (.absorb8 0x61#8) := by rfl
/-- `01dddddddd` at both ends of the operand's range. -/
theorem test_decode_absorb8_ends :
    decode 0x100#10 = .ok (.absorb8 0x00#8) ∧ decode 0x1ff#10 = .ok (.absorb8 0xff#8) := ⟨rfl, rfl⟩
/-- `1000000000` is `FINALIZE`. -/
theorem test_decode_finalize : decode 0b1000000000#10 = .ok .finalize := by rfl
/-- The reserved words of V-D60, each under its class. -/
theorem test_decode_reserved :
    decode 0x001#10 = .error .newOperand ∧ decode 0x0ff#10 = .error .newOperand ∧
      decode 0x201#10 = .error .finalizeOperand ∧ decode 0x2ff#10 = .error .finalizeOperand ∧
      decode 0x300#10 = .error .opcode ∧ decode 0x3ff#10 = .error .opcode :=
  ⟨rfl, rfl, rfl, rfl, rfl, rfl⟩
/-- The table's bits, in whole bytes, are the command word's; a larger number is no word. -/
theorem test_table_words :
    decodeTableWord 16 0x000 = some .new ∧ decodeTableWord 16 0x161 = some (.absorb8 0x61#8) ∧
      decodeTableWord 16 0x200 = some .finalize ∧ decodeTableWord 16 0x3ff = none ∧
      decodeTableWord 16 0x400 = none := by decide

/-! ### Functions of the datapath -/

/-- V-D02, V-D03, V-D05. -/
theorem test_primitives :
    rotr 0x12345678#32 13 = 0xb3c091a2#32 ∧ rotr 0xdeadbeef#32 18 = 0x6fbbf7ab#32 ∧
      shr 0x12345678#32 10 = 0x00048d15#32 ∧ be32 0x31#8 0x32#8 0x33#8 0x34#8 = 0x31323334#32 ∧
      tobe64 0x1f40#64 = #v[0#8, 0#8, 0#8, 0#8, 0#8, 0#8, 0x1f#8, 0x40#8] := by decide
/-- V-D10 to V-D15, the rows of `0xdeadbeef` and of three different inputs. -/
theorem test_round_functions :
    ssig0 0xdeadbeef#32 = 0xabd31b0b#32 ∧ ssig1 0xdeadbeef#32 = 0x689dbfec#32 ∧
      bsig0 0xdeadbeef#32 = 0xb62e25ac#32 ∧ bsig1 0xdeadbeef#32 = 0x345e14a3#32 ∧
      ch 0x510e527f#32 0x9b05688c#32 0x1f83d9ab#32 = 0x1f85c98c#32 ∧
      maj 0xffff0000#32 0x12345678#32 0x9abcdef0#32 = 0x9abc5670#32 := by decide
/-- V-D40, the row of `t = 0`. -/
theorem test_round_zero :
    roundWith Config.k[0] 0x80000000#32 (wvInit Config.iv) =
      ⟨0x7c08884d#32, 0x6a09e667#32, 0xbb67ae85#32, 0x3c6ef372#32,
       0x18c7e2a2#32, 0x510e527f#32, 0x9b05688c#32, 0x1f83d9ab#32⟩ := by decide
/-- V-D33: the byte order of `LOADW`, and three words of the schedule. -/
theorem test_schedule :
    (sched (Vector.ofFn fun i => BitVec.ofNat 8 i.val))[0] = 0x00010203#32 ∧
      (sched (Vector.ofFn fun i => BitVec.ofNat 8 i.val))[16] = 0x2d84894c#32 ∧
      (sched (Vector.ofFn fun i => BitVec.ofNat 8 i.val))[18] = 0x65d5a368#32 := by decide
/-- V-D42: the rounds with a schedule of zeros. -/
theorem test_compress_zero_block :
    compress Config.iv (Vector.replicate 64 0#8) =
      #v[0xda5698be#32, 0x17b9b469#32, 0x62335799#32, 0x779fbeca#32,
         0x8ce5d491#32, 0xc0d26243#32, 0xbafef9ea#32, 0x1837a9d8#32] := by decide +kernel
/-- V-D28: the tail `61 62 63` of a message of 64003 bytes. -/
theorem test_padding_long_message :
    padBuild [0x61#8, 0x62#8, 0x63#8] 64003 =
      [0x61#8, 0x62#8, 0x63#8, 0x80#8] ++ List.replicate 57 0#8 ++ [0x07#8, 0xd0#8, 0x18#8] := by decide
/-- R75's edges: total and zero fill for tails of 55, 56 and 63 bytes. -/
theorem test_padding_sizes :
    padTotal 55 = 64 ∧ padZeros 55 = 0 ∧ padTotal 56 = 128 ∧ padZeros 56 = 63 ∧
      padTotal 63 = 128 ∧ padZeros 63 = 56 := by decide

/-! ### Single steps -/

/-- A state as after reset, with `n` bytes of value `b` absorbed and none of them compressed. -/
def absorbing (n : Nat) (b : Byte) : State :=
  { State.reset with
    len := BitVec.ofNat 64 n
    buf := memWrite [] 0 (List.replicate n b) }

/-- A state as after reset in which the given bytes have been absorbed. -/
def holding (bytes : List Byte) : State :=
  { State.reset with
    len := BitVec.ofNat 64 bytes.length
    buf := memWrite [] 0 bytes }

/-- A finalized state. -/
def finalized : State := { State.reset with phase := .fin }

/-- A field of the state a step leads to. -/
def after {α : Type} (o : Host.Outcome State Fault Refusal) (f : State → α) : Option α :=
  match o with
  | .next s => some (f s)
  | _ => none

/-- A field of the state after the host presents the word `w` to `s`. -/
def afterWord {α : Type} (s : State) (w : Nat) (f : State → α) : Option α :=
  after (step (s.withFetchWord 16 w)) f

/-- V-D66: `NEW` in mid-message discards it. -/
theorem test_new_discards :
    afterWord (holding [0x61#8, 0x62#8]) 0x000 (fun t => (t.len, t.phase, t.response)) =
      some (0#64, .acc, some .ok) := by decide
/-- V-D64: `NEW` does not clear the fault record. -/
theorem test_new_keeps_record :
    afterWord { finalized with err := true, cause := 2#2 } 0x000 status = some 0b1010#4 := by decide
/-- V-D65: the counter wraps without a fault, and the block completes (V-D44). -/
theorem test_absorb8_counter_wraps :
    afterWord { absorbing 63 0x61#8 with len := 0xffffffffffffffff#64 } 0x161
        (fun t => (t.len, t.h, t.response)) =
      some (0#64,
        #v[0xdf5bb81c#32, 0xe81e0626#32, 0xfb45a894#32, 0x4fd40f31#32,
           0xb25e6816#32, 0xd6d499c1#32, 0xab904929#32, 0x00635e66#32],
        some .ok) := by decide +kernel
/-- V-D61: `ABSORB8` in `FIN`. -/
theorem test_absorb8_usage_fault :
    afterWord finalized 0x161 (fun t => (status t, t.len, t.response)) =
      some (0b0111#4, 0#64, some (.fault .usageFault)) := by decide
/-- V-D53: 56 bytes `61`, two final blocks. -/
theorem test_finalize_two_blocks :
    (afterWord (absorbing 56 0x61#8) 0x200 State.h) =
      some #v[0xb35439a4#32, 0xac6f0948#32, 0xb6d6f9e3#32, 0xc6af0f5f#32,
              0x590ce20f#32, 0x1bde7090#32, 0xef797068#32, 0x6ec6738a#32] := by decide +kernel
/-- P4: after 70 bytes `00 01 .. 45`; the stale bytes of `BUF` do not enter the padding. -/
theorem test_finalize_ignores_stale_bytes :
    (afterWord
        { State.reset with
          h := #v[0xfc99a2df#32, 0x88f42a7a#32, 0x7bb9d180#32, 0x33cdc6a2#32,
                  0x0256755f#32, 0x9d5b9a50#32, 0x44a9cc31#32, 0x5abe84a7#32]
          len := 70#64
          buf := memWrite (memWrite [] 0 ((List.range 64).map (BitVec.ofNat 8)))
            0 [0x40#8, 0x41#8, 0x42#8, 0x43#8, 0x44#8, 0x45#8] }
        0x200 State.h) =
      some #v[0x5767d69a#32, 0x906d4860#32, 0xdb9079eb#32, 0x7e90ab4a#32,
              0x543e5cb0#32, 0x32fce846#32, 0x554aef6c#32, 0xeb600e1d#32] := by decide +kernel
/-- V-S1, P1: the digest of the empty message, as the response of the first command after reset. -/
theorem test_digest_of_empty_message :
    afterWord State.reset 0x200 State.response =
      some (some (.digest
        #v[0xe3#8, 0xb0#8, 0xc4#8, 0x42#8, 0x98#8, 0xfc#8, 0x1c#8, 0x14#8,
           0x9a#8, 0xfb#8, 0xf4#8, 0xc8#8, 0x99#8, 0x6f#8, 0xb9#8, 0x24#8,
           0x27#8, 0xae#8, 0x41#8, 0xe4#8, 0x64#8, 0x9b#8, 0x93#8, 0x4c#8,
           0xa4#8, 0x95#8, 0x99#8, 0x1b#8, 0x78#8, 0x52#8, 0xb8#8, 0x55#8])) := by decide +kernel
/-- V-D62: a reserved word from reset. -/
theorem test_reserved_word_faults :
    afterWord State.reset 0x3ff (fun t => (status t, t.response)) =
      some (0b1010#4, some (.fault .illegalCommand)) := by decide

/-- R30, V-D65's block: after a block completes no byte of `BUF` and no scratch holds a value. -/
theorem test_absorb8_block_leaves_nothing_stale :
    afterWord (absorbing 63 0x61#8) 0x161 (fun t => (t.buf.length, t.w.isSome, t.wv.isSome, t.t.isSome)) =
      some (0, false, false, false) := by decide
/-- R30, R64, R79: after `FINALIZE` neither `PBUF` nor `j` holds a value; `BUF` holds its one byte. -/
theorem test_finalize_leaves_nothing_stale :
    afterWord (holding [0x61#8]) 0x200 (fun t => (t.buf.length, t.pbuf.length, t.j.isSome)) =
      some (1, 0, false) := by decide

/-! ### Assembler (R57 to R60) -/

/-- R58's example: `absorb "123456"`. -/
theorem test_assemble_absorb :
    assemble [['a', 'b', 's', 'o', 'r', 'b', ' ', '"', '1', '2', '3', '4', '5', '6', '"']] =
      some [0x131#10, 0x132#10, 0x133#10, 0x134#10, 0x135#10, 0x136#10] := by decide
/-- R60's example: `sha256 ""`; and R59 with a comment. -/
theorem test_assemble_pseudo :
    assemble [['s', 'h', 'a', '2', '5', '6', ' ', '"', '"']] = some [0x000#10, 0x200#10] ∧
      assemble [['a', 'b', 's', 'o', 'r', 'b', 'n', ' ', '3', ',', ' ', '\'', 'a', '\'', ' ', '#', 'x']] =
        some [0x161#10, 0x161#10, 0x161#10] := by decide
/-- R57: the three forms of a byte, a mnemonic in upper case, and a number that is no byte. -/
theorem test_assemble_bytes :
    assemble [['a', 'b', 's', 'o', 'r', 'b', '8', ' ', '0', 'x', '6', '1'],
              ['A', 'B', 'S', 'O', 'R', 'B', '8', ' ', '9', '7'],
              ['a', 'b', 's', 'o', 'r', 'b', '8', ' ', '\'', 'a', '\'']] =
        some [0x161#10, 0x161#10, 0x161#10] ∧
      assemble [['a', 'b', 's', 'o', 'r', 'b', '8', ' ', '2', '5', '6']] = none := by decide
/-- R57: a listing shows three hex digits. -/
theorem test_listing : listing 0x1aa#10 = ['1', 'a', 'a'] := by decide

/-! ### Witnesses: values that meet the hypotheses of the obligations -/

/-- The state in which the host presents one input to a reset machine. -/
def presenting (x : HostInput) : State := presentNext x State.reset

/-- A block of 64 bytes `61`. -/
def fullBlock : Block := Vector.replicate 64 0x61#8

theorem witness_reserved_word :
    (presenting (.command 0x3ff#10)).pending = [.command 0x3ff#10] ∧
      decode 0x3ff#10 = .error .opcode := ⟨rfl, rfl⟩
theorem witness_step_runs_command :
    (presenting (.command 0x161#10)).pending = [.command 0x161#10] ∧
      decode 0x161#10 = .ok (.absorb8 0x61#8) ∧
      decodeTableWord 16 0x161 = some (.absorb8 0x61#8) := ⟨rfl, rfl, rfl⟩
theorem witness_reset_input : (presenting .reset).pending = [.reset] := rfl
theorem witness_idle : State.reset.pending = [] := rfl

/-- The invariant holds in the reset state and in a state with a full tail, and both can step. -/
theorem witness_invariant :
    State.reset.Inv ∧ (absorbing 63 0x61#8).Inv ∧ (∃ t, step State.reset = .next t) ∧
      (∃ t, step ((absorbing 63 0x61#8).withFetchWord 16 0x161) = .next t) :=
  ⟨by decide, by decide, ⟨_, rfl⟩, ⟨_, rfl⟩⟩
/-- Nothing stale: after reset, and in the state one byte before a block completes; both can step. -/
theorem witness_nothing_stale :
    State.reset.NothingStale ∧ (absorbing 63 0x61#8).NothingStale ∧
      (∃ t, step State.reset = .next t) ∧
      (∃ t, step ((absorbing 63 0x61#8).withFetchWord 16 0x161) = .next t) := by
  refine ⟨⟨rfl, rfl, rfl, rfl, rfl, fun _ _ => rfl⟩, ⟨rfl, rfl, rfl, rfl, rfl, fun a ha => ?_⟩, ⟨_, rfl⟩, ⟨_, rfl⟩⟩
  have hfill : fill (absorbing 63 0x61#8) = 63 := by decide
  have hbuf : Store.wfFrom 63 0 (absorbing 63 0x61#8).buf = true := by decide
  exact Store.get?_of_wfFrom (by omega) hbuf
theorem witness_live : State.reset.BufLive ∧ (absorbing 63 0x61#8).BufLive ∧ finalized.BufLive :=
  ⟨by decide, by decide, by decide⟩

theorem witness_absorb8_finalized : finalized.phase = .fin := rfl
/-- The second case at both ends of its range of `FILL`. -/
theorem witness_absorb8_stores :
    (State.reset.phase = .acc ∧ State.reset.len.toNat % 64 ≠ 63) ∧
      ((absorbing 62 0x61#8).phase = .acc ∧ (absorbing 62 0x61#8).len.toNat % 64 ≠ 63) := by decide
theorem witness_absorb8_completes_block :
    (absorbing 63 0x61#8).phase = .acc ∧ (absorbing 63 0x61#8).len.toNat % 64 = 63 ∧
      (∀ i : Fin 63, (absorbing 63 0x61#8).buf.get? i.val = some fullBlock[i.val]) ∧
      fullBlock[63] = 0x61#8 := by decide
/-- The tail at both sides of the boundary between one final block and two. -/
theorem witness_finalize_tail :
    (absorbing 55 0x61#8).Tail (List.replicate 55 0x61#8) ∧
      (absorbing 56 0x61#8).Tail (List.replicate 56 0x61#8) ∧ (absorbing 55 0x61#8).phase = .acc :=
  ⟨⟨by decide, by decide⟩, ⟨by decide, by decide⟩, rfl⟩
theorem witness_word_completes :
    (∃ t, execWord 0x000#10 State.reset = .next t) ∧ (∃ t, execWord 0x161#10 State.reset = .next t) ∧
      (∃ t, execWord 0x200#10 finalized = .next t) ∧ (∃ t, execWord 0x3ff#10 State.reset = .next t) :=
  ⟨⟨_, rfl⟩, ⟨_, rfl⟩, ⟨_, rfl⟩, ⟨_, rfl⟩⟩
/-- For the frames: each command answers, `ABSORB8` and `FINALIZE` in both phases, `ABSORB8` also where it
completes a block. -/
theorem witness_frames :
    (∃ t, exec .new State.reset = .next t) ∧ (∃ t, exec (.absorb8 0x61#8) finalized = .next t) ∧
      (∃ t, exec (.absorb8 0x61#8) State.reset = .next t) ∧ fill State.reset ≠ 63 ∧
      (∃ t, exec (.absorb8 0x61#8) (absorbing 63 0x61#8) = .next t) ∧ fill (absorbing 63 0x61#8) = 63 ∧
      (∃ t, exec .finalize finalized = .next t) ∧ (∃ t, exec .finalize State.reset = .next t) :=
  ⟨⟨_, rfl⟩, ⟨_, rfl⟩, ⟨_, rfl⟩, by decide, ⟨_, rfl⟩, by decide, ⟨_, rfl⟩, ⟨_, rfl⟩⟩

/-- A state whose chaining value is not the initial one. -/
def otherChain : State := { finalized with h := Vector.replicate 8 0#32 }

theorem witness_chain_and_phase_change :
    afterWord otherChain 0x000 (fun t => decide (t.h ≠ otherChain.h)) = some true ∧
      afterWord otherChain 0x000 (fun t => decide (t.phase ≠ otherChain.phase)) = some true := by decide
theorem witness_phase_finalized :
    afterWord State.reset 0x200 (fun t => decide (t.phase ≠ State.reset.phase)) = some true := by decide
/-- A recorded fault, and a step that is no reset. -/
theorem witness_sticky_record :
    (∃ t, step { finalized with err := true, cause := 1#2 } = .next t) ∧
      (∀ rest, ({ finalized with err := true, cause := 1#2 } : State).pending ≠ .reset :: rest) :=
  ⟨⟨_, rfl⟩, fun _ hr => by cases hr⟩
theorem witness_fault_recorded :
    State.reset.err = false ∧ afterWord State.reset 0x3ff State.err = some true := by decide
theorem witness_digest_phases : finalized.phase = .fin ∧ State.reset.phase = .acc := ⟨rfl, rfl⟩
theorem witness_digest_stable : finalized.phase = .fin ∧ decode 0x200#10 ≠ .ok .new := by
  refine ⟨rfl, ?_⟩
  intro hd
  cases hd

/-- A state that differs from reset in all of its stale storage. -/
def otherScratch : State :=
  { State.reset with
    wv := some (wvInit Config.iv)
    buf := [(0, 0x61#8)]
    pbuf := [(127, 0x61#8)]
    w := some (Vector.replicate 64 1#32)
    t := some 5
    j := some 1 }

theorem witness_agree_live : State.reset.AgreeLive otherScratch ∧ ∃ t, step State.reset = .next t :=
  ⟨⟨rfl, rfl, rfl, rfl, rfl, rfl, rfl, fun i hi => absurd hi (by simp [fill, State.reset])⟩, ⟨_, rfl⟩⟩
/-- Two message bytes, and two different contents of `H` and `BUF`, under equal control. -/
theorem witness_agree_control :
    (absorbing 63 0x61#8).AgreeControl { absorbing 63 0x00#8 with h := Vector.replicate 8 0#32 } ∧
      (absorbing 63 0x61#8).BufLive ∧
      ({ absorbing 63 0x00#8 with h := Vector.replicate 8 0#32 } : State).BufLive ∧
      (toFields (.absorb8 0x00#8)).op = (toFields (.absorb8 0xff#8)).op :=
  ⟨⟨rfl, rfl⟩, by decide, by decide, rfl⟩
/-- Two instances, of which either can step. -/
theorem witness_instances :
    (∃ sys, Instances.step (nInst := 2) 0 (Instances.reset 2) = .next sys) ∧
      (∃ sys, Instances.step (nInst := 2) 1 (Instances.reset 2) = .next sys) ∧
      (1 : Fin 2) ≠ 0 := ⟨⟨_, rfl⟩, ⟨_, rfl⟩, by decide⟩

/-- Messages absorbed: the empty one, one byte, and the last length before a block completes. -/
theorem witness_absorbed :
    State.reset.Absorbed [] ∧ (holding [0x61#8]).Absorbed [0x61#8] ∧
      (absorbing 63 0x61#8).Absorbed (List.replicate 63 0x61#8) :=
  ⟨⟨rfl, rfl, rfl, by decide, by decide⟩, ⟨rfl, rfl, rfl, by decide, by decide⟩,
    ⟨rfl, rfl, rfl, by decide, by decide⟩⟩
/-- A lifetime with a reserved word among its bytes. -/
theorem witness_lifetime :
    State.reset.AfterNew ∧
      ∀ cw ∈ [0x161#10, 0x3ff#10], decode cw ≠ .ok .new ∧ decode cw ≠ .ok .finalize := by
  refine ⟨⟨rfl, rfl, rfl⟩, ?_⟩
  intro cw hc
  rcases List.mem_cons.1 hc with rfl | hc
  · constructor <;> intro hd <;> cases hd
  · rcases List.mem_cons.1 hc with rfl | hc
    · constructor <;> intro hd <;> cases hd
    · cases hc

/-- An offset in each part of the padding of one byte. -/
theorem witness_padding_offsets :
    0 < [0x61#8].length ∧ ([0x61#8].length < 2 ∧ 2 < padTotal [0x61#8].length - 8) ∧
      ([0x61#8].length < 55 ∧ 55 < padTotal [0x61#8].length - 8) ∧ 7 < 8 := by decide
theorem witness_block_count : 55 ≤ 55 ∧ (56 ≤ 56 ∧ 56 ≤ 63) ∧ (56 ≤ 63 ∧ 63 ≤ 63) := by decide
theorem witness_shift_amounts : (0 < 1 ∧ 1 < 32) ∧ (0 < 31 ∧ 31 < 32) ∧ 0 < 32 := by decide

/-- The working variables after each round of a block. -/
def workingAfter (X : Chain) (B : Block) : Nat → Working
  | 0 => wvInit X
  | n + 1 => if hn : n < 64 then roundAt (sched B) (workingAfter X B n) ⟨n, hn⟩ else workingAfter X B n

theorem witness_rounds (X : Chain) (B : Block) :
    workingAfter X B 0 = ⟨X[0], X[1], X[2], X[3], X[4], X[5], X[6], X[7]⟩ ∧
      ∀ t : Fin 64, workingAfter X B (t.val + 1) =
        roundAt (expand (loadw B (Vector.replicate 64 0#32))) (workingAfter X B t.val) t :=
  ⟨rfl, fun t => by simp only [workingAfter, dif_pos t.isLt]; rfl⟩

end Sys2Proof.Tests
end

section
/-! SUPPORT. What the word operations of the datapath mean (spec 00_scope.md R8 to R10): their values
as numbers, and the rotation in terms of the library's own. The obligations about them follow. -/

namespace Sys2Proof.Machine

open Sys2Proof

theorem toNat_add32 (x y : Word) : (add32 x y).toNat = (x.toNat + y.toNat) % 2 ^ 32 :=
  BitVec.toNat_add x y

/-- The value of `shr` at every amount, also those that R10 leaves out. -/
theorem toNat_shr (x : Word) (n : Nat) : (shr x n).toNat = x.toNat / 2 ^ n := by
  rw [shr, BitVec.toNat_ushiftRight, Nat.shiftRight_eq_div_pow]

/-- The formula of R9 is the library's rotation, whose amount counts modulo the width. -/
theorem rotr_eq_rotateRight (x : Word) {n : Nat} (hn : n < 32) : rotr x n = x.rotateRight n := by
  rw [rotr, BitVec.rotateRight_def, Nat.mod_eq_of_lt hn]

/-- A bit of the result comes from `n` places above while there is such a bit, and from the low end
otherwise. -/
theorem getLsbD_rotr (x : Word) {n i : Nat} (hn : n < 32) (hi : i < 32) :
    (rotr x n).getLsbD i = x.getLsbD ((i + n) % 32) := by
  rw [rotr_eq_rotateRight x hn, BitVec.getLsbD_rotateRight, Nat.mod_eq_of_lt hn]
  by_cases hfits : i < 32 - n
  · have hsource : (i + n) % 32 = n + i := by omega
    simp [hfits, hsource]
  · have hsource : (i + n) % 32 = i - (32 - n) := by omega
    simp [hfits, hi, hsource]

/-- Settles O43, by the library's rotation: the bits above the amount move down, the others wrap. -/
theorem rotationBits : Obligations.RotationBits := by
  unfold Obligations.RotationBits
  intro x n i _ hn hi
  exact getLsbD_rotr x hn hi

/-- Settles O42: the word operations are the bit vector's own, of which the library gives the values. -/
theorem additionWrapsAndShiftDivides : Obligations.AdditionWrapsAndShiftDivides := by
  unfold Obligations.AdditionWrapsAndShiftDivides
  exact ⟨toNat_add32, fun x n _ _ => toNat_shr x n⟩

end Sys2Proof.Machine
end

section
/-! SUPPORT. The byte-order conversions (spec 00_scope.md R12): the value of a byte string, the byte at
each place of a word, and that the two directions are inverse to each other. The obligation follows. -/

namespace Sys2Proof.Machine

open Sys2Proof

/-- Appending a byte at the low end is one step of the base-256 value. -/
theorem toNat_append_byte {w : Nat} (x : BitVec w) (b : Byte) :
    (x ++ b).toNat = x.toNat * 2 ^ 8 + b.toNat := by
  rw [BitVec.toNat_append, ← Nat.shiftLeft_add_eq_or_of_lt b.isLt, Nat.shiftLeft_eq]

theorem toNat_be32 (b0 b1 b2 b3 : Byte) :
    (be32 b0 b1 b2 b3).toNat =
      b0.toNat * 2 ^ 24 + b1.toNat * 2 ^ 16 + b2.toNat * 2 ^ 8 + b3.toNat := by
  simp only [be32, toNat_append_byte]
  omega

/-- The byte that stands `k` bits above the low end, as a number. -/
theorem toNat_extractLsb'_byte {w : Nat} (v : BitVec w) (k : Nat) :
    (v.extractLsb' k 8).toNat = v.toNat / 2 ^ k % 256 := by
  rw [BitVec.extractLsb'_toNat, Nat.shiftRight_eq_div_pow]

/-- The four base-256 digits of a word give it back. -/
theorem be32_tobe32 (w : Word) :
    be32 (tobe32 w)[0] (tobe32 w)[1] (tobe32 w)[2] (tobe32 w)[3] = w := by
  have hw : w.toNat < 2 ^ 32 := w.isLt
  apply BitVec.eq_of_toNat_eq
  rw [toNat_be32]
  change (w.extractLsb' 24 8).toNat * 2 ^ 24 + (w.extractLsb' 16 8).toNat * 2 ^ 16
    + (w.extractLsb' 8 8).toNat * 2 ^ 8 + (w.extractLsb' 0 8).toNat = w.toNat
  simp only [toNat_extractLsb'_byte]
  omega

/-- A slice above the lowest byte does not see that byte. -/
theorem extractLsb'_append_byte {w : Nat} (x : BitVec w) (b : Byte) (k : Nat) :
    (x ++ b).extractLsb' (k + 8) 8 = x.extractLsb' k 8 := by
  rw [BitVec.extractLsb'_append_eq_of_le (by omega), Nat.add_sub_cancel]

/-- The slice of each byte drops the bytes below it, one by one. -/
theorem tobe32_be32 (b0 b1 b2 b3 : Byte) : tobe32 (be32 b0 b1 b2 b3) = #v[b0, b1, b2, b3] := by
  have hbyte0 : (be32 b0 b1 b2 b3).extractLsb' 24 8 = b0 :=
    (extractLsb'_append_byte _ b3 16).trans <|
      (extractLsb'_append_byte _ b2 8).trans BitVec.extractLsb'_append_eq_left
  have hbyte1 : (be32 b0 b1 b2 b3).extractLsb' 16 8 = b1 :=
    (extractLsb'_append_byte _ b3 8).trans <|
      (extractLsb'_append_byte _ b2 0).trans BitVec.extractLsb'_append_eq_right
  have hbyte2 : (be32 b0 b1 b2 b3).extractLsb' 8 8 = b2 :=
    (extractLsb'_append_byte _ b3 0).trans BitVec.extractLsb'_append_eq_right
  have hbyte3 : (be32 b0 b1 b2 b3).extractLsb' 0 8 = b3 := BitVec.extractLsb'_append_eq_right
  simp only [tobe32, hbyte0, hbyte1, hbyte2, hbyte3]

theorem tobe64_getElem (v : BitVec 64) (m : Fin 8) :
    (tobe64 v)[m] = v.extractLsb' (8 * (7 - m.val)) 8 := by
  fin_cases m <;> rfl

/-- Settles O44: the value of `be32` in base 256, its inverse by digits one way and by slices the
other, and the bytes of `tobe64` as digits. -/
theorem bigEndianConversions : Obligations.BigEndianConversions := by
  unfold Obligations.BigEndianConversions
  refine ⟨toNat_be32, be32_tobe32, tobe32_be32, fun v m => ?_⟩
  rw [tobe64_getElem, toNat_extractLsb'_byte]

end Sys2Proof.Machine
end

section
/-! SUPPORT. The reserved words (spec 30_encoding.md R52): the decoder rejects exactly the ill-formed
words, and the two fields of a word are its quotient and its remainder by 256. The obligation follows. -/

namespace Sys2Proof.Machine

open Sys2Proof

/-- The decoder rejects two fields exactly where one of the checks of R52 fails. -/
theorem decodeFields_eq_error_iff (c : C10) :
    (∃ r, decodeFields c = .error r) ↔ c.wf = false := by
  unfold decodeFields
  cases hop : c.opDefined with
  | false => simp [C10.wf, hop]
  | true =>
    cases hnew : c.newImmZero with
    | false => simp [C10.wf, hnew]
    | true =>
      cases hfin : c.finalizeImmZero with
      | false => simp [C10.wf, hfin]
      | true =>
        have hwf : c.wf = true := by simp [C10.wf, hop, hnew, hfin]
        by_cases h0 : c.op = 0#2
        · simp [h0, hwf]
        · by_cases h1 : c.op = 1#2 <;> simp [h0, h1, hwf]

/-- The three classes of R52, with the fields as numbers. -/
theorem wf_eq_false_iff (c : C10) :
    c.wf = false ↔ c.op.toNat = 3 ∨ (c.op.toNat = 0 ∧ c.imm8.toNat ≠ 0) ∨
      (c.op.toNat = 2 ∧ c.imm8.toNat ≠ 0) := by
  simp [C10.wf, C10.opDefined, C10.newImmZero, C10.finalizeImmZero, BitVec.toNat_eq,
    Bool.and_eq_false_iff, -Bool.and_eq_false_imp, or_assoc]

theorem toNat_fields_op (cw : CommandWord) : (fields cw).op.toNat = cw.toNat / 256 := by
  have hcw : cw.toNat < 1024 := cw.isLt
  rw [fields, BitVec.extractLsb'_toNat, Nat.shiftRight_eq_div_pow]
  omega

theorem toNat_fields_imm8 (cw : CommandWord) : (fields cw).imm8.toNat = cw.toNat % 256 := by
  rw [fields, toNat_extractLsb'_byte, pow_zero, Nat.div_one]

/-- The words of the three ranges of R52, and no others, are rejected. -/
theorem decode_eq_error_iff (cw : CommandWord) :
    (∃ r, decode cw = .error r) ↔
      ((0x300 ≤ cw.toNat ∧ cw.toNat ≤ 0x3FF) ∨ (0x001 ≤ cw.toNat ∧ cw.toNat ≤ 0x0FF) ∨
        (0x201 ≤ cw.toNat ∧ cw.toNat ≤ 0x2FF)) := by
  have hcw : cw.toNat < 1024 := cw.isLt
  rw [decode, decodeFields_eq_error_iff, wf_eq_false_iff, toNat_fields_op, toNat_fields_imm8]
  omega

/-- A step with a word to take executes that word. -/
theorem step_of_command {s : State} {cw : CommandWord} {rest : List HostInput}
    (hp : s.pending = .command cw :: rest) :
    step s = execWord cw { s with pending := rest } := by
  rw [step, takeInput_cons s _ rest hp]

/-- Settles O2: the ranges are those of the ill-formed words, and the step is one fault entry (R104). -/
theorem reservedWordsFault : Obligations.ReservedWordsFault := by
  unfold Obligations.ReservedWordsFault
  refine ⟨decode_eq_error_iff, fun s cw rest r hp hd => ?_⟩
  rw [step_of_command hp, execWord_of_error _ hd]
  rfl

end Sys2Proof.Machine
end

section
/-! SUPPORT. The responses of the commands (spec 30_encoding.md R56), one lemma for each command, and
what `DIGEST` reads in `FIN` (10_state.md R27). The obligation follows. -/

namespace Sys2Proof.Machine

open Sys2Proof

theorem readDigest_of_fin {s : State} (hp : s.phase = .fin) : readDigest s = some (serialize s.h) := by
  simp [readDigest, digestValid, hp]

theorem execNew_response {s t : State} (he : exec .new s = .next t) : t.response = some .ok := by
  rw [exec_new] at he
  cases he
  rfl

theorem execAbsorb8_response {d : Byte} {s t : State} (he : exec (.absorb8 d) s = .next t) :
    t.response = some .ok ∨ t.response = some (.fault .usageFault) := by
  obtain ⟨-, rfl⟩ | ⟨-, -, rfl⟩ | ⟨-, -, B, -, rfl⟩ := execAbsorb8_cases he
  · exact .inr (raise_response _ _)
  · exact .inl (respond_response _ _)
  · exact .inl (respond_response _ _)

/-- `FINALIZE` ends in `FIN` in either phase, where its response is what `DIGEST` reads. -/
theorem execFinalize_response {s t : State} (he : exec .finalize s = .next t) :
    t.phase = .fin ∧ t.response = some (.digest (serialize t.h)) := by
  obtain ⟨hp, rfl⟩ | ⟨-, R, u, -, -, rfl⟩ := execFinalize_cases he
  · exact ⟨hp, respond_response _ _⟩
  · exact ⟨rfl, respond_response _ _⟩

/-- Settles O17: the decoder's answer says which command's response it is. -/
theorem everyWordHasOneResponse : Obligations.EveryWordHasOneResponse := by
  unfold Obligations.EveryWordHasOneResponse
  intro s t cw he
  cases hd : decode cw with
  | error r =>
    rw [execWord_of_error s hd] at he
    cases he
    exact raise_response _ _
  | ok i =>
    rw [execWord_of_ok s hd] at he
    cases i with
    | new => exact execNew_response he
    | absorb8 d => exact execAbsorb8_response he
    | finalize =>
      obtain ⟨hfin, hresp⟩ := execFinalize_response he
      exact ⟨serialize t.h, hresp, readDigest_of_fin hfin⟩

end Sys2Proof.Machine
end

section
/-! SUPPORT. The schedule is a function of the block alone (spec 42_schedule.md R85, R86): two runs of its
loops that start on different words agree on every word written so far. So the engine's `COMPRESS` on `H`
is the pure one (43_compression.md R94). -/

namespace Sys2Proof.Machine

open Sys2Proof

/-- Two fixed loops over `0 .. m-1` keep a relation between their values that every pair of steps keeps. -/
theorem foldl_finRange_rel {α β : Type} {m : Nat} (r : Nat → α → β → Prop) {f : α → Fin m → α}
    {g : β → Fin m → β} {a : α} {b : β} (hinit : r 0 a b)
    (hstep : ∀ (n : Fin m) (x : α) (y : β), r n.val x y → r (n.val + 1) (f x n) (g y n)) :
    r m ((List.finRange m).foldl f a) ((List.finRange m).foldl g b) := by
  induction m with
  | zero => simpa using hinit
  | succ m ih =>
    simp only [List.finRange_succ_last, List.foldl_append, List.foldl_map, List.foldl_cons,
      List.foldl_nil]
    exact hstep (Fin.last m) _ _ (ih fun n x y => hstep n.castSucc x y)

/-- Two schedules hold the same words below the index `n`. -/
def AgreeBelow (n : Nat) (W W' : Schedule) : Prop := ∀ (i : Nat) (hi : i < 64), i < n → W[i] = W'[i]

/-- Writing the same word at the next index extends the agreement by one. -/
theorem AgreeBelow.set {n : Nat} {W W' : Schedule} (hag : AgreeBelow n W W') (hn : n < 64) (v : Word) :
    AgreeBelow (n + 1) (W.set n v) (W'.set n v) := by
  intro i hi hlt
  by_cases hin : n = i
  · simp [hin]
  · rw [Vector.getElem_set_ne _ _ hin, Vector.getElem_set_ne _ _ hin]
    exact hag i hi (by omega)

/-- `LOADW` takes the first sixteen words from the block. -/
theorem agreeBelow_loadw (B : Block) (W W' : Schedule) : AgreeBelow 16 (loadw B W) (loadw B W') :=
  foldl_finRange_rel AgreeBelow (fun i _ hlt => absurd hlt (Nat.not_lt_zero i))
    fun j _ _ hag => hag.set (by omega) _

/-- `EXPAND` computes each further word from words of smaller index. -/
theorem agreeBelow_expand {W W' : Schedule} (hag : AgreeBelow 16 W W') :
    AgreeBelow 64 (expand W) (expand W') := by
  refine foldl_finRange_rel (fun n => AgreeBelow (n + 16)) hag fun n X X' hX => ?_
  have h0 := hX n.val (by omega) (by omega)
  have h1 := hX (n.val + 1) (by omega) (by omega)
  have h9 := hX (n.val + 9) (by omega) (by omega)
  have h14 := hX (n.val + 14) (by omega) (by omega)
  have hset := hX.set (by omega)
    (add32 (add32 (add32 X[n.val] (ssig0 X[n.val + 1])) X[n.val + 9]) (ssig1 X[n.val + 14]))
  rw [Nat.add_right_comm]
  simpa only [expandWord, h0, h1, h9, h14] using hset

/-- What `W` held before a `COMPRESS` does not matter (R85). -/
theorem scheduleInto_eq_sched (B : Block) (W : Schedule) : scheduleInto B W = sched B := by
  rw [sched, scheduleInto, scheduleInto]
  ext i hi : 1
  exact agreeBelow_expand (agreeBelow_loadw B W _) i hi hi

/-- The engine's `COMPRESS` on `H` is the pure function (R94). -/
theorem compressBlock_h_eq_compress (B : Block) (s : State) :
    (compressBlock B s).h = compress s.h B := by
  rw [compressBlock_h, scheduleInto_eq_sched, compress]

end Sys2Proof.Machine
end

section
/-! SUPPORT. The meanings of `NEW` and `ABSORB8` (spec 40_commands.md R62, R63): their words, the counter,
and the block that the 64th byte completes. Their obligations follow. -/

namespace Sys2Proof.Machine

open Sys2Proof

theorem encode_absorb8 (d : Byte) : encode (.absorb8 d) = 0x100#10 + BitVec.setWidth 10 d := by
  have hd : d.toNat < 256 := d.isLt
  have hword : (encode (.absorb8 d)).toNat = 1 * 2 ^ 8 + d.toNat := toNat_append_byte 0b01#2 d
  apply BitVec.eq_of_toNat_eq
  rw [hword, BitVec.toNat_add, BitVec.toNat_setWidth, BitVec.toNat_ofNat]
  omega

/-- `LEN` counts modulo 2^64 (R23, R106). -/
theorem toNat_putByte_len (d : Byte) (s : State) :
    (putByte d s).len.toNat = (s.len.toNat + 1) % 2 ^ 64 := by
  rw [putByte_len, BitVec.toNat_add]
  rfl

/-- The 64th byte completes the block whose other bytes `BUF` holds. -/
theorem memRead_putByte_block {s : State} {B : Block} (hf : fill s = 63)
    (hbuf : ∀ i : Fin 63, s.buf.get? i.val = some B[i.val]) :
    memRead (putByte B[63] s).buf 0 64 = some B := by
  rw [memRead_eq_some]
  intro i hi
  rw [putByte_buf, hf, Nat.zero_add, Store.get?_set]
  by_cases hlast : i = 63
  · simp [hlast]
  · rw [if_neg hlast]
    exact hbuf ⟨i, by omega⟩

/-- Settles O11: the meaning answers in every state, and an empty `BUF` holds no value to compare. -/
theorem newStartsMessage : Obligations.NewStartsMessage := by
  unfold Obligations.NewStartsMessage
  refine ⟨rfl, fun s => ⟨_, exec_new s, ?_⟩⟩
  simp [fill, State.SameScratch]

/-- Settles O12, one case of the meaning each: in `FIN`, below the last offset of a block, and at it. -/
theorem absorb8StoresCountsCompresses : Obligations.Absorb8StoresCountsCompresses := by
  unfold Obligations.Absorb8StoresCountsCompresses
  refine ⟨encode_absorb8, fun s d hp => exec_absorb8_fin d hp, fun s d hp hf => ?_,
    fun s d B hp hf hbuf hd => ?_⟩
  · refine ⟨_, exec_absorb8_store d hp hf, rfl, toNat_putByte_len d s, fun a => ?_, hp, rfl, rfl,
      ⟨rfl, rfl, rfl, rfl, rfl⟩, rfl, rfl⟩
    rw [respond_buf, putByte_buf, Store.get?_set, fill]
  · subst hd
    have hfill : fill s = 63 := hf
    refine ⟨_, exec_absorb8_block hp hfill (memRead_putByte_block hfill hbuf), ?_, toNat_putByte_len B[63] s,
      ?_, hp, rfl, rfl, rfl, rfl, rfl, rfl⟩
    · rw [respond_h, forgetBuf_h, compressBlock_h_eq_compress, putByte_h]
    · calc fill (respond .ok (forgetBuf (compressBlock B (putByte B[63] s))))
        _ = fill (putByte B[63] s) := fill_congr rfl
        _ = 0 := by rw [fill_putByte, hfill]

end Sys2Proof.Machine
end

section
/-! SUPPORT. The meaning of `FINALIZE` (spec 40_commands.md R64): reading the padded tail out of `PBUF`
block by block folds its blocks into `H`, in order (R95). The obligation follows. -/

namespace Sys2Proof.Machine

open Sys2Proof

/-- A store that holds the bytes of `P` gives, read by blocks, the blocks of `P`. -/
theorem memRead_eq_blockAt {S : Store} {P : List Byte} {n : Nat} (hn : 64 * n + 64 ≤ P.length)
    (hS : ∀ a, a < P.length → S.get? a = P[a]?) :
    memRead S (64 * n) 64 = some (blockAt P n) := by
  rw [memRead_eq_some]
  intro i hi
  have ha : 64 * n + i < P.length := by omega
  simp [hS _ ha, blockAt, ha]

/-- Where `PBUF` holds the blocks of `P`, the final blocks answer with `H` folded over them. -/
theorem finalBlocks_chain {P : List Byte} {s : State} (hS : ∀ a, a < P.length → s.pbuf.get? a = P[a]?) :
    ∀ {n : Nat}, 64 * n ≤ P.length → ∃ u, finalBlocks n s = some u ∧ u.h = chainBlocks s.h P n
  | 0, _ => ⟨s, rfl, rfl⟩
  | n + 1, hn => by
    obtain ⟨u, hu, huh⟩ := finalBlocks_chain hS (n := n) (by omega)
    obtain ⟨-, -, -, -, -, hpbuf, -, -⟩ := finalBlocks_frame hu
    have hB : memRead u.pbuf (64 * n) 64 = some (blockAt P n) :=
      memRead_eq_blockAt (by omega) (by rwa [hpbuf])
    refine ⟨_, (finalBlocks_succ hu).trans (finalBlock_of_read hB), ?_⟩
    exact (compressBlock_h_eq_compress _ u).trans (by rw [huh, chainBlocks])

/-- The live bytes of `BUF` are what `FINALIZE` reads of it (R21). -/
theorem memRead_of_tail {s : State} {R : List Byte} (hR : s.Tail R) :
    (memRead s.buf 0 (fill s)).map Vector.toList = some R := by
  obtain ⟨hlen, hbytes⟩ := hR
  exact memRead_toList.2 ⟨hlen, by simpa using hbytes⟩

/-- A tail pads to whole blocks, and `FINALIZE` has loaded them all before it reads the first. -/
theorem finalBlocks_padding (R : List Byte) (L : Nat) (s : State) :
    ∃ u, finalBlocks (padTotal R.length / 64) (loadPadding (padBuild R L) s) = some u ∧
      u.h = chainBlocks s.h (padBuild R L) (padTotal R.length / 64) := by
  refine finalBlocks_chain (s := loadPadding (padBuild R L) s) (fun a ha => ?_) ?_
  · rw [loadPadding_get?, if_pos ha]
  · rw [padBuild_length]
    omega

/-- Settles O14: the padded tail's size by its length, and the final blocks by their chain and frame. -/
theorem finalizePadsCompressesPresents : Obligations.FinalizePadsCompressesPresents := by
  unfold Obligations.FinalizePadsCompressesPresents
  refine ⟨rfl, fun s hp => exec_finalize_fin hp, fun s R hp hR => ?_⟩
  have hlen : R.length = fill s := hR.1
  obtain ⟨u, hu, hchain⟩ := finalBlocks_padding R s.len.toNat s
  obtain ⟨hulen, hubuf, -, huerr, hucause, -, hupending, -⟩ := finalBlocks_frame hu
  rw [hlen] at hu hchain
  rw [padBuild_length, hlen]
  exact ⟨padTotal_of_lt (fill_lt s), _, exec_finalize_acc hp (memRead_of_tail hR) hu, hchain, rfl, rfl, hulen,
    hubuf, huerr, hucause, hupending⟩

end Sys2Proof.Machine
end

section
/-! SUPPORT. The padding builder (spec 41_padding.md R73 to R76): the bytes of each of its four parts by
offset, and the size of the whole. The obligations follow. -/

namespace Sys2Proof.Machine

open Sys2Proof

/-- The message bytes, the marker and the zero fill leave room for exactly the length field. -/
theorem length_before_padLength (R : List Byte) :
    (R ++ [0x80#8] ++ List.replicate (padZeros R.length) 0x00#8).length = padTotal R.length - 8 := by
  have hroom := padTotal_ge R.length
  simp only [List.length_append, List.length_singleton, List.length_replicate, padZeros]
  omega

theorem padBuild_getElem?_message {R : List Byte} {i : Nat} (L : Nat) (hi : i < R.length) :
    (padBuild R L)[i]? = R[i]? := by
  rw [padBuild, List.append_assoc, List.append_assoc, List.getElem?_append_left hi]

theorem padBuild_getElem?_marker (R : List Byte) (L : Nat) :
    (padBuild R L)[R.length]? = some 0x80#8 := by
  rw [padBuild, List.append_assoc, List.append_assoc, List.getElem?_append_right (le_refl _),
    Nat.sub_self]
  rfl

theorem padBuild_getElem?_zero {R : List Byte} {i : Nat} (L : Nat) (hlo : R.length < i)
    (hhi : i < padTotal R.length - 8) : (padBuild R L)[i]? = some 0x00#8 := by
  have hmarker : (R ++ [0x80#8]).length ≤ i := by rw [List.length_append]; exact hlo
  rw [padBuild, List.getElem?_append_left (by rwa [length_before_padLength]),
    List.getElem?_append_right hmarker, List.getElem?_replicate_of_lt]
  rw [List.length_append, List.length_singleton, padZeros]
  omega

theorem padBuild_getElem?_padLength (R : List Byte) (L m : Nat) :
    (padBuild R L)[padTotal R.length - 8 + m]? = (padLength L)[m]? := by
  rw [padBuild, ← length_before_padLength, List.getElem?_append_right (Nat.le_add_right _ _),
    Nat.add_sub_cancel_left, Vector.getElem?_toList]

/-- The bit length counts modulo 2^64, and its bytes are its base-256 digits, the first the highest. -/
theorem padLength_getElem (L : Nat) (m : Fin 8) :
    (padLength L)[m] = BitVec.ofNat 8 ((8 * L) % 2 ^ 64 / 2 ^ (8 * (7 - m.val))) := by
  apply BitVec.eq_of_toNat_eq
  rw [padLength, tobe64_getElem, toNat_extractLsb'_byte, BitVec.toNat_ofNat, BitVec.toNat_ofNat]

/-- Settles O37, part by part: message bytes, marker, zero fill, length field, size. -/
theorem paddingLayout : Obligations.PaddingLayout := by
  unfold Obligations.PaddingLayout
  refine fun R L => ⟨fun _ hi => padBuild_getElem?_message L hi, padBuild_getElem?_marker R L,
    fun _ hlo hhi => padBuild_getElem?_zero L hlo hhi, fun m hm => ?_, padBuild_length R L⟩
  rw [padBuild_getElem?_padLength, Vector.getElem?_eq_getElem hm]
  exact congrArg some (padLength_getElem L ⟨m, hm⟩)

/-- Settles O38: the size is `padTotal` of the tail, whose quotient form gives every bound. -/
theorem paddedLength : Obligations.PaddedLength := by
  unfold Obligations.PaddedLength
  intro R L
  rw [padBuild_length, padTotal_eq]
  omega

end Sys2Proof.Machine
end

section
/-! SUPPORT. The message-schedule expander, word by word (spec 42_schedule.md R81 to R84): a turn of a loop
writes one word, and no later turn touches what it settled. The obligations follow. -/

namespace Sys2Proof.Machine

open Sys2Proof

/-- Where each turn of a fixed loop settles its own property and keeps those of the turns before it, all of
them hold after the loop. -/
theorem foldl_finRange_settles {α : Type} {m : Nat} {f : α → Fin m → α} (Q : Fin m → α → Prop)
    (hsettle : ∀ n x, Q n (f x n)) (hkeep : ∀ k n x, k < n → Q k x → Q k (f x n)) (a : α) (k : Fin m) :
    Q k ((List.finRange m).foldl f a) := by
  have hbelow : ∀ k : Fin m, k.val < m → Q k ((List.finRange m).foldl f a) :=
    foldl_finRange_rel (fun n x (_ : α) => ∀ k : Fin m, k.val < n → Q k x) (b := a)
      (g := f) (fun k hk => absurd hk (Nat.not_lt_zero k.val)) fun n x _ ih k hk => by
        obtain hlt | heq : k < n ∨ k = n := lt_or_eq_of_le (Nat.le_of_lt_succ hk)
        · exact hkeep k n x hlt (ih k hlt)
        · exact heq ▸ hsettle k x
  exact hbelow k k.isLt

theorem loadWord_self (B : Block) (W : Schedule) (j : Fin 16) :
    (loadWord B W j)[j.val] =
      be32 B[4 * j.val] B[4 * j.val + 1] B[4 * j.val + 2] B[4 * j.val + 3] := by
  rw [loadWord, Vector.getElem_set_self]

theorem loadw_getElem (B : Block) (W : Schedule) (j : Fin 16) :
    (loadw B W)[j.val] =
      be32 B[4 * j.val] B[4 * j.val + 1] B[4 * j.val + 2] B[4 * j.val + 3] :=
  foldl_finRange_settles (fun j (X : Schedule) => X[j.val] = _) (fun j X => loadWord_self B X j)
    (fun k j X hlt hk => (loadWord_ne B X j (by omega) (by omega)).trans hk) W j

/-- `LOADW` touches no word past the sixteenth. -/
theorem loadw_getElem_of_ge (B : Block) (W : Schedule) {i : Nat} (hi : i < 64) (hge : 16 ≤ i) :
    (loadw B W)[i] = W[i] :=
  List.foldlRecOn (motive := fun X : Schedule => X[i] = W[i]) _ _ rfl
    fun X hX j _ => (loadWord_ne B X j hi (by omega)).trans hX

/-- `EXPAND` touches none of the first sixteen words. -/
theorem expand_getElem_of_lt (W : Schedule) {i : Nat} (hlt : i < 16) : (expand W)[i] = W[i] :=
  List.foldlRecOn (motive := fun X : Schedule => X[i] = W[i]) _ _ rfl
    fun X hX n _ => (expandWord_ne X n (by omega) (by omega)).trans hX

/-- The recurrence of R84 at the index `n + 16`, all five words taken from the same schedule. -/
def RecurrenceAt (n : Fin 48) (X : Schedule) : Prop :=
  X[n.val + 16] = X[n.val] + ssig0 X[n.val + 1] + X[n.val + 9] + ssig1 X[n.val + 14]

theorem expandWord_self (W : Schedule) (n : Fin 48) :
    (expandWord W n)[n.val + 16] =
      W[n.val] + ssig0 W[n.val + 1] + W[n.val + 9] + ssig1 W[n.val + 14] := by
  simp only [expandWord, add32, Vector.getElem_set_self]

/-- The word a step writes is none of the four it reads, so the recurrence speaks of the new schedule. -/
theorem recurrenceAt_expandWord_self (n : Fin 48) (X : Schedule) : RecurrenceAt n (expandWord X n) := by
  have hread : ∀ (i : Nat) (hi : i < n.val + 16), (expandWord X n)[i] = X[i] :=
    fun i hi => expandWord_ne X n (by omega) (by omega)
  rw [RecurrenceAt, hread n.val (by omega), hread (n.val + 1) (by omega), hread (n.val + 9) (by omega),
    hread (n.val + 14) (by omega), expandWord_self]

/-- A later step writes above all five words of the recurrence. -/
theorem recurrenceAt_expandWord_of_lt (k n : Fin 48) (X : Schedule) (hlt : k < n) (hk : RecurrenceAt k X) :
    RecurrenceAt k (expandWord X n) := by
  have hsame : ∀ {i : Nat} (hi : i ≤ k.val + 16), (expandWord X n)[i] = X[i] :=
    fun hi => expandWord_ne X n (by omega) (by omega)
  rw [RecurrenceAt, hsame (by omega), hsame (by omega), hsame (by omega), hsame (by omega),
    hsame (by omega)]
  exact hk

theorem expand_recurrenceAt (W : Schedule) (n : Fin 48) : RecurrenceAt n (expand W) :=
  foldl_finRange_settles RecurrenceAt recurrenceAt_expandWord_self recurrenceAt_expandWord_of_lt W n

/-- Settles O47: each turn settles one word, and none writes past the sixteenth. -/
theorem loadwSplitsBlock : Obligations.LoadwSplitsBlock := by
  unfold Obligations.LoadwSplitsBlock
  exact fun B W => ⟨loadw_getElem B W, fun i => loadw_getElem_of_ge B W (by omega) (by omega)⟩

/-- Settles O48: each turn settles the recurrence at one index, and none writes below the sixteenth word. -/
theorem expandRecurrence : Obligations.ExpandRecurrence := by
  unfold Obligations.ExpandRecurrence
  exact fun W => ⟨fun j => expand_getElem_of_lt W j.isLt, expand_recurrenceAt W⟩

/-- Settles O45: the formula of R9 is the library's rotation at each of the ten amounts. -/
theorem sigmaFunctions : Obligations.SigmaFunctions := by
  unfold Obligations.SigmaFunctions
  intro x
  have hrotr : ∀ {n : Nat}, n < 32 → rotr x n = x.rotateRight n := rotr_eq_rotateRight x
  refine ⟨?_, ?_, ?_, ?_⟩
  · simp only [ssig0, shr, hrotr (n := 7) (by decide), hrotr (n := 18) (by decide)]
  · simp only [ssig1, shr, hrotr (n := 17) (by decide), hrotr (n := 19) (by decide)]
  · simp only [bsig1, hrotr (n := 6) (by decide), hrotr (n := 11) (by decide),
      hrotr (n := 25) (by decide)]
  · simp only [bsig0, hrotr (n := 2) (by decide), hrotr (n := 13) (by decide),
      hrotr (n := 22) (by decide)]

end Sys2Proof.Machine
end

section
/-! SUPPORT. The compression engine (spec 43_compression.md R88 to R94): the bits of `ch` and `maj`, the values
of one round, and the rounds as a sequence of working variables. The obligations follow. -/

namespace Sys2Proof.Machine

open Sys2Proof

/-- The rounds lead to the last of any sequence of working variables that follows `ROUND(t)` (R94). -/
theorem rounds_eq_of_sequence {W : Schedule} (v : Nat → Working)
    (hround : ∀ t : Fin 64, v (t.val + 1) = roundAt W (v t.val) t) : rounds W (v 0) = v 64 :=
  foldl_finRange (roundAt W) v hround

/-- Settles O52: a sequence of rounds ends where the loop over them does, and the engine's loop is the pure
one, whatever the scratch held. -/
theorem compressRunsRoundsInOrder : Obligations.CompressRunsRoundsInOrder := by
  unfold Obligations.CompressRunsRoundsInOrder
  refine ⟨fun X B v hstart hround => ?_, fun B s =>
    ⟨compressBlock_h_eq_compress B s, compressBlock_len B s, compressBlock_buf B s, compressBlock_phase B s,
      compressBlock_err B s, compressBlock_cause B s, compressBlock_pbuf B s, compressBlock_j B s,
      compressBlock_pending B s, compressBlock_response B s⟩⟩
  have hinit : wvInit X = v 0 := hstart.symm
  have hlast : rounds (sched B) (v 0) = v 64 := rounds_eq_of_sequence v hround
  rw [compress, hinit, hlast]

/-- R88: one of the two masked terms is zero at each bit, so their sum chooses. -/
theorem getLsbD_ch (x y z : Word) {i : Nat} (hi : i < 32) :
    (ch x y z).getLsbD i = if x.getLsbD i then y.getLsbD i else z.getLsbD i := by
  simp only [ch, BitVec.getLsbD_xor, BitVec.getLsbD_and, BitVec.getLsbD_not, hi, decide_true,
    Bool.true_and]
  cases x.getLsbD i <;> simp

theorem getLsbD_maj (x y z : Word) (i : Nat) :
    (maj x y z).getLsbD i =
      (((x.getLsbD i && y.getLsbD i) ^^ (x.getLsbD i && z.getLsbD i)) ^^
        (y.getLsbD i && z.getLsbD i)) := by
  rw [maj, BitVec.getLsbD_xor, BitVec.getLsbD_xor, BitVec.getLsbD_and, BitVec.getLsbD_and,
    BitVec.getLsbD_and]

/-- Of three bits, an odd number of pairs are both set exactly where two or three bits are set. -/
theorem xor_pairs_eq_true_iff : ∀ a b c : Bool,
    (((a && b) ^^ (a && c)) ^^ (b && c)) = true ↔ 2 ≤ a.toNat + b.toNat + c.toNat := by
  decide

/-- Settles O46, by the bits of the two formulas: a choice, and the parity of the pairs that are set. -/
theorem chooseAndMajorityBits : Obligations.ChooseAndMajorityBits := by
  unfold Obligations.ChooseAndMajorityBits
  refine fun x y z i hi => ⟨getLsbD_ch x y z hi, ?_⟩
  rw [getLsbD_maj]
  exact xor_pairs_eq_true_iff _ _ _

theorem temp1_eq_sum (k w : Word) (v : Working) :
    temp1 k w v = v.h + bsig1 v.e + ch v.e v.f v.g + k + w := rfl

theorem temp2_eq_sum (v : Working) : temp2 v = bsig0 v.a + maj v.a v.b v.c := rfl

/-- R92, the assignments in parallel. -/
theorem roundWith_eq (k w : Word) (v : Working) :
    roundWith k w v =
      ⟨temp1 k w v + temp2 v, v.a, v.b, v.c, v.d + temp1 k w v, v.e, v.f, v.g⟩ := rfl

/-- Settles O50: the written order, from `h` down to `a`, overwrites no value that a later assignment reads,
so its last record is the parallel one field by field. -/
theorem roundParallelAndWrittenOrder : Obligations.RoundParallelAndWrittenOrder := by
  unfold Obligations.RoundParallelAndWrittenOrder
  intro k w v t1 t2
  have hparallel : roundWith k w v = ⟨t1 + t2, v.a, v.b, v.c, v.d + t1, v.e, v.f, v.g⟩ := by
    rw [roundWith_eq, temp1_eq_sum, temp2_eq_sum]
  exact ⟨hparallel, hparallel, fun _ _ => rfl⟩

/-- Settles O51: the addition of the datapath is that of the words themselves (R8). -/
theorem addbackAddsWorking : Obligations.AddbackAddsWorking := by
  unfold Obligations.AddbackAddsWorking
  intro X v
  simp only [addback, add32]

end Sys2Proof.Machine
end

section
/-! SUPPORT. The bytes of the digest (spec 44_digest.md R99), by word and place in the word. The obligation
follows. -/

namespace Sys2Proof.Machine

open Sys2Proof

theorem tobe32_getElem (w : Word) (m : Fin 4) :
    (tobe32 w)[m] = w.extractLsb' (24 - 8 * m.val) 8 := by
  fin_cases m <;> rfl

/-- The eight appended words are the rows of one table, four bytes to a row. -/
theorem serialize_eq_flatten (X : Chain) : serialize X = (X.map tobe32).flatten := by
  have hwords : X = #v[X[0], X[1], X[2], X[3], X[4], X[5], X[6], X[7]] := by
    ext i hi : 1
    interval_cases i <;> rfl
  apply Vector.toList_inj.mp
  rw [hwords, serialize_toList]
  simp [Vector.toList]

/-- The offset `4i + m` stands in row `i`, at column `m`. -/
theorem serialize_getElem (X : Chain) (i : Fin 8) (m : Fin 4) :
    (serialize X)[4 * i.val + m.val] = (tobe32 X[i])[m] := by
  have hlt : 4 * i.val + m.val < 8 * 4 := by omega
  have hrow : (4 * i.val + m.val) / 4 = i.val := by omega
  have hcolumn : (4 * i.val + m.val) % 4 = m.val := by omega
  simp [serialize_eq_flatten, Vector.getElem_flatten hlt, hrow, hcolumn]

/-- Settles O53: the byte is found in its word, and there by the order of `tobe32`. -/
theorem digestBytes : Obligations.DigestBytes := by
  unfold Obligations.DigestBytes
  intro X i m
  rw [serialize_getElem, tobe32_getElem]

end Sys2Proof.Machine
end

section
/-! SUPPORT. Fault entry as one record update, and that it keeps the `DIGEST` output (spec
60_exceptions.md R109, R103). The obligations follow. -/

namespace Sys2Proof.Machine

open Sys2Proof

theorem raise_eq (c : FaultCode) (s : State) :
    raise c s =
      { s with
        cause := if s.err then s.cause else faultCode c
        err := true
        response := some (.fault c) } := rfl

/-- `DIGEST` depends on `PHASE` and `H` only. -/
theorem readDigest_congr {s t : State} (hp : t.phase = s.phase) (hh : t.h = s.h) :
    readDigest t = readDigest s := by
  unfold readDigest digestValid
  rw [hp, hh]

/-- Settles O15: whether a fault is already recorded decides what `CAUSE` holds. -/
theorem faultEntryRecordsFirstCause : Obligations.FaultEntryRecordsFirstCause := by
  unfold Obligations.FaultEntryRecordsFirstCause
  intro s c
  refine ⟨?_, rfl, rfl⟩
  rw [raise_eq]
  cases s.err with
  | false => simp only [Bool.false_eq_true, if_false, if_true]
  | true => simp only [Bool.true_eq_false, if_true, if_false]

/-- Settles O13: in `FIN`, `ABSORB8` is fault entry alone, and `FINALIZE` responds with the digest. -/
theorem absorb8AfterFinalizeIsUsageFault : Obligations.Absorb8AfterFinalizeIsUsageFault := by
  unfold Obligations.Absorb8AfterFinalizeIsUsageFault
  intro s d hfin
  constructor
  · exact ⟨raise .usageFault s, exec_absorb8_fin d hfin, raise_response _ _, raise_err _ _,
      raise_cause _ _, raise_buf _ _, raise_len _ _, raise_h _ _, (raise_phase _ _).trans hfin,
      readDigest_congr (raise_phase _ _) (raise_h _ _)⟩
  · refine ⟨respond (.digest (serialize s.h)) s, exec_finalize_fin hfin, ?_⟩
    intro c hc
    rw [respond_response] at hc
    cases hc

end Sys2Proof.Machine
end

section
/-! SUPPORT. Decoding and encoding (spec 30_encoding.md R48 to R55): the decoder answers a command exactly
on that command's fields, and a word is made of its two fields. The obligations follow. -/

namespace Sys2Proof.Machine

open Sys2Proof

/-- An opcode is one of the four two-bit patterns (R49). -/
theorem opcode_cases : ∀ op : BitVec 2, op = 0#2 ∨ op = 1#2 ∨ op = 2#2 ∨ op = 3#2 := by
  decide

/-- The fields the decoder accepts for a command are the ones the opcode map gives it (R51). -/
theorem decodeFields_eq_ok_iff (c : C10) (i : Instr) : decodeFields c = .ok i ↔ toFields i = c := by
  constructor
  · obtain ⟨op, imm8⟩ := c
    intro hd
    obtain rfl | rfl | rfl | rfl := opcode_cases op
    · by_cases himm : imm8 = 0#8
      · subst himm
        cases hd
        rfl
      · simp [decodeFields, C10.opDefined, C10.newImmZero, himm] at hd
    · cases hd
      rfl
    · by_cases himm : imm8 = 0#8
      · subst himm
        cases hd
        rfl
      · simp [decodeFields, C10.opDefined, C10.newImmZero, C10.finalizeImmZero, himm] at hd
    · cases hd
  · rintro rfl
    cases i with
    | new => rfl
    | absorb8 d => rfl
    | finalize => rfl

theorem decode_eq_ok_iff (cw : CommandWord) (i : Instr) : decode cw = .ok i ↔ toFields i = fields cw :=
  decodeFields_eq_ok_iff (fields cw) i

/-- A word is its two fields put together again: its quotient and remainder by 256. -/
theorem pack_fields (cw : CommandWord) : pack (fields cw) = cw := by
  apply BitVec.eq_of_toNat_eq
  have hpack : (pack (fields cw)).toNat = (fields cw).op.toNat * 2 ^ 8 + (fields cw).imm8.toNat :=
    toNat_append_byte _ _
  rw [hpack, toNat_fields_op, toNat_fields_imm8]
  omega

theorem decode_encode (i : Instr) : decode (encode i) = .ok i := by
  rw [decode_eq_ok_iff, encode, Laws.fields_pack]

theorem encode_of_decode {cw : CommandWord} {i : Instr} (hd : decode cw = .ok i) : encode i = cw := by
  rw [encode, (decode_eq_ok_iff cw i).1 hd, pack_fields]

/-- Settles O1: each clause reads off the one characterisation of the decoder by the opcode map. -/
theorem decodeEncodeAgree : Obligations.DecodeEncodeAgree := by
  unfold Obligations.DecodeEncodeAgree
  refine ⟨fun cw => ?_, rfl, encode_absorb8, rfl, decode_encode, fun cw i => encode_of_decode⟩
  split_ifs with hnew habs hfin
  · rw [decode_eq_ok_iff, toFields, ← hnew.1, ← hnew.2]
  · rw [decode_eq_ok_iff, toFields, ← habs]
  · rw [decode_eq_ok_iff, toFields, ← hfin.1, ← hfin.2]
  · cases hd : decode cw with
    | error r => exact ⟨r, rfl⟩
    | ok i =>
      have hf : toFields i = fields cw := (decode_eq_ok_iff cw i).1 hd
      rw [← hf] at hnew habs hfin
      cases i with
      | new => exact absurd ⟨rfl, rfl⟩ hnew
      | absorb8 d => exact absurd rfl habs
      | finalize => exact absurd ⟨rfl, rfl⟩ hfin

/-- Settles O3: the five words are those that `encode` makes of the commands. -/
theorem writtenWordsDecode : Obligations.WrittenWordsDecode := by
  unfold Obligations.WrittenWordsDecode
  exact ⟨decode_encode .new, decode_encode (.absorb8 0x00#8), decode_encode (.absorb8 0x61#8),
    decode_encode (.absorb8 0xff#8), decode_encode .finalize⟩

end Sys2Proof.Machine
end

section
/-! SUPPORT. What a step that answers has done, one case per kind of input (spec 40_commands.md R61,
60_exceptions.md R117, 70_reset_and_hazards.md R118). The obligations about the step and about reset follow. -/

namespace Sys2Proof.Machine

open Sys2Proof

/-- What a step from `s` did: nothing, a reset, fault entry for a reserved word, or a command. -/
inductive Stepped (s : State) : State → Prop where
  | idle (hp : s.pending = []) : Stepped s (idle s)
  | reset {rest : List HostInput} (hp : s.pending = .reset :: rest) :
      Stepped s (applyReset { s with pending := rest })
  | reserved {cw : CommandWord} {rest : List HostInput} {r : Reserved}
      (hp : s.pending = .command cw :: rest) (hd : decode cw = .error r) :
      Stepped s (raise .illegalCommand { s with pending := rest })
  | command {cw : CommandWord} {rest : List HostInput} {i : Instr} {t : State}
      (hp : s.pending = .command cw :: rest) (hd : decode cw = .ok i)
      (he : exec i { s with pending := rest } = .next t) : Stepped s t

theorem step_of_nil {s : State} (hp : s.pending = []) : step s = .next (idle s) := by
  rw [step, takeInput_nil s hp]

theorem step_of_reset {s : State} {rest : List HostInput} (hp : s.pending = .reset :: rest) :
    step s = .next (applyReset { s with pending := rest }) := by
  rw [step, takeInput_cons s _ rest hp]

theorem step_of_ok {s : State} {cw : CommandWord} {rest : List HostInput} {i : Instr}
    (hp : s.pending = .command cw :: rest) (hd : decode cw = .ok i) :
    step s = exec i { s with pending := rest } := by
  rw [step_of_command hp, execWord_of_ok _ hd]

theorem step_of_error {s : State} {cw : CommandWord} {rest : List HostInput} {r : Reserved}
    (hp : s.pending = .command cw :: rest) (hd : decode cw = .error r) :
    step s = .next (raise .illegalCommand { s with pending := rest }) := by
  rw [step_of_command hp, execWord_of_error _ hd]

theorem stepped_of_step {s t : State} (hs : step s = .next t) : Stepped s t := by
  obtain ⟨hp, hidle⟩ | ⟨rest, hp, hreset⟩ | ⟨cw, rest, hp, -⟩ := step_eq s
  · cases hidle.symm.trans hs
    exact .idle hp
  · cases hreset.symm.trans hs
    exact .reset hp
  · cases hd : decode cw with
    | error r =>
      cases (step_of_error hp hd).symm.trans hs
      exact .reserved hp hd
    | ok i => exact .command hp hd ((step_of_ok hp hd).symm.trans hs)

/-- The table's bits that the decoder reads a command from are those of a word of that command (log 8). -/
theorem decodeTableWord_eq_some {nbits w : Nat} {i : Instr} (hw : decodeTableWord nbits w = some i) :
    ∃ cw, tableWord w = some cw ∧ decode cw = .ok i := by
  unfold decodeTableWord at hw
  split at hw
  · cases hw
  · next cw hcw =>
    split at hw
    · next k hk =>
      cases hw
      exact ⟨cw, hcw, hk⟩
    · cases hw

/-- The step after presenting a table's word runs it. -/
theorem step_withFetchWord {nbits w : Nat} {cw : CommandWord} {i : Instr} (s : State)
    (hcw : tableWord w = some cw) (hd : decode cw = .ok i) :
    step (s.withFetchWord nbits w) = exec i s := by
  rw [State.withFetchWord, hcw]
  exact step_of_ok (presentNext_pending _ _) hd

/-- Settles O4: the step dispatches the decoded word, and the table's word is one. -/
theorem stepRunsDecodedCommand : Obligations.StepRunsDecodedCommand := by
  unfold Obligations.StepRunsDecodedCommand
  refine ⟨fun s cw rest i hp hd => step_of_ok hp hd, fun s nbits w i hw => ?_⟩
  obtain ⟨cw, hcw, hd⟩ := decodeTableWord_eq_some hw
  exact step_withFetchWord s hcw hd

/-- Settles O7: each value is the one `State.reset` lists. -/
theorem resetStateValues : Obligations.ResetStateValues := by
  unfold Obligations.ResetStateValues
  exact ⟨rfl, rfl, rfl, rfl, rfl, rfl, rfl, rfl⟩

/-- The outputs depend on the fields that reset sets, not on the host's inputs. -/
theorem status_applyReset (s : State) : status (applyReset s) = status State.reset := rfl

theorem readDigest_applyReset (s : State) : readDigest (applyReset s) = readDigest State.reset := rfl

/-- Settles O5: the step is `applyReset`, which keeps the later inputs only (log 7). -/
theorem resetInputGivesResetValues : Obligations.ResetInputGivesResetValues := by
  unfold Obligations.ResetInputGivesResetValues
  intro s rest hp
  obtain ⟨-, -, -, -, -, -, hstatus, hdigest⟩ := resetStateValues
  exact ⟨_, step_of_reset hp, applyReset_h _, applyReset_len _, rfl, applyReset_phase _, applyReset_err _,
    applyReset_cause _, (status_applyReset _).trans hstatus, (readDigest_applyReset _).trans hdigest,
    applyReset_response _, applyReset_pending _⟩

/-- Settles O6: the step is `idle`, which drops the response only. -/
theorem idleStepHoldsState : Obligations.IdleStepHoldsState := by
  unfold Obligations.IdleStepHoldsState
  exact fun s hp => step_of_nil hp

end Sys2Proof.Machine
end

section
/-! SUPPORT. The two commands that read `BUF`, on a state whose live bytes are known (spec 40_commands.md R63,
R64): the exact state `ABSORB8` and `FINALIZE` lead to. That every step completes where the live bytes hold
values (R61), and the transition table (R65), follow. -/

namespace Sys2Proof.Machine

open Sys2Proof

theorem tail_iff_memRead {s : State} {R : List Byte} :
    s.Tail R ↔ (memRead s.buf 0 (fill s)).map Vector.toList = some R := by
  simp only [State.Tail, memRead_toList, Nat.zero_add]

/-- Live bytes that hold values are the bytes of some tail (R21). -/
theorem exists_tail {s : State} (hlive : s.BufLive) : ∃ R, s.Tail R := by
  obtain ⟨V, hV⟩ := Option.isSome_iff_exists.1
    ((memRead_isSome s.buf 0 (fill s)).2 (by simpa only [Nat.zero_add] using hlive))
  exact ⟨V.toList, tail_iff_memRead.2 (by rw [hV]; rfl)⟩

theorem bufLive_of_tail {s : State} {R : List Byte} (hR : s.Tail R) : s.BufLive := by
  obtain ⟨hlen, hbytes⟩ := hR
  intro i hi
  rw [hbytes i hi, List.getElem?_eq_getElem (by omega)]
  rfl

/-- The live bytes of `BUF` and the byte stored after them. -/
theorem putByte_get? {s : State} {R : List Byte} (d : Byte) (hR : s.Tail R) {a : Nat}
    (ha : a < (R ++ [d]).length) : (putByte d s).buf.get? a = (R ++ [d])[a]? := by
  obtain ⟨hlen, hbytes⟩ := hR
  rw [List.length_append, List.length_singleton] at ha
  rw [putByte_buf, Store.get?_set, ← hlen]
  by_cases hlast : a = R.length
  · rw [if_pos hlast, hlast, List.getElem?_concat_length]
  · rw [if_neg hlast, List.getElem?_append_left (by omega), hbytes a (by omega)]

/-- The block that the 64th byte completes is the tail and that byte. -/
theorem memRead_putByte_tail {s : State} {R : List Byte} (d : Byte) (hf : fill s = 63) (hR : s.Tail R) :
    memRead (putByte d s).buf 0 64 = some (blockAt (R ++ [d]) 0) := by
  have hlen : R.length = 63 := hR.1.trans hf
  exact memRead_eq_blockAt (n := 0) (by simp [hlen]) fun a ha => putByte_get? d hR ha

theorem exec_absorb8_block_of_tail {s : State} {R : List Byte} (d : Byte) (hp : s.phase = .acc)
    (hf : fill s = 63) (hR : s.Tail R) :
    exec (.absorb8 d) s =
      .next (respond .ok (forgetBuf (compressBlock (blockAt (R ++ [d]) 0) (putByte d s)))) :=
  exec_absorb8_block hp hf (memRead_putByte_tail d hf hR)

/-- `H` folded over the final blocks of the tail `R`, in order (R64, R95). -/
def finalChain (R : List Byte) (s : State) : Chain :=
  chainBlocks s.h (padBuild R s.len.toNat) (padTotal R.length / 64)

/-- The state in which `FINALIZE` presents the digest of a message whose tail is `R` (R64). -/
def presented (R : List Byte) (s : State) : State :=
  { s with
    h := finalChain R s
    phase := .fin
    wv := none
    w := none
    pbuf := []
    t := none
    j := none
    response := some (.digest (serialize (finalChain R s))) }

theorem exec_finalize_of_tail {s : State} {R : List Byte} (hp : s.phase = .acc) (hR : s.Tail R) :
    exec .finalize s = .next (presented R s) := by
  obtain ⟨u, hu, hchain⟩ := finalBlocks_padding R s.len.toNat s
  obtain ⟨hlen, hbuf, -, herr, hcause, -, hpending, -⟩ := finalBlocks_frame hu
  obtain ⟨hwv, hw, ht⟩ := finalBlocks_scratch (padTotal_blocks_ne_zero _) hu
  rw [hR.1] at hu
  have hu_eq : respond (.digest (serialize u.h)) (forgetPadding { u with phase := .fin }) =
      presented R s := by
    simp only [respond, forgetPadding, presented, finalChain, hchain, hlen, hbuf, herr, hcause, hpending,
      hwv, hw, ht, loadPadding_len, loadPadding_buf, loadPadding_err, loadPadding_cause,
      loadPadding_pending]
  rw [exec_finalize_acc hp (memRead_of_tail hR) hu, hu_eq]

/-- A `FINALIZE` that answers in `ACC` has found a tail and presented its digest. -/
theorem execFinalize_acc_cases {s t : State} (he : exec .finalize s = .next t) (hp : s.phase = .acc) :
    ∃ R, s.Tail R ∧ t = presented R s := by
  obtain ⟨hfin, -⟩ | ⟨-, V, -, hV, -⟩ := execFinalize_cases he
  · cases hfin.symm.trans hp
  · have hR : s.Tail V.toList := tail_iff_memRead.2 (by rw [hV]; rfl)
    refine ⟨V.toList, hR, ?_⟩
    cases he.symm.trans (exec_finalize_of_tail hp hR)
    rfl

theorem execAbsorb8_completes {s : State} (d : Byte) (hlive : s.BufLive) :
    ∃ t, exec (.absorb8 d) s = .next t := by
  cases hp : s.phase with
  | fin => exact ⟨_, exec_absorb8_fin d hp⟩
  | acc =>
    by_cases hf : fill s = 63
    · obtain ⟨R, hR⟩ := exists_tail hlive
      exact ⟨_, exec_absorb8_block_of_tail d hp hf hR⟩
    · exact ⟨_, exec_absorb8_store d hp hf⟩

theorem execFinalize_completes {s : State} (hlive : s.BufLive) : ∃ t, exec .finalize s = .next t := by
  cases hp : s.phase with
  | fin => exact ⟨_, exec_finalize_fin hp⟩
  | acc =>
    obtain ⟨R, hR⟩ := exists_tail hlive
    exact ⟨_, exec_finalize_of_tail hp hR⟩

theorem exec_completes {s : State} (i : Instr) (hlive : s.BufLive) : ∃ t, exec i s = .next t := by
  cases i with
  | new => exact ⟨_, exec_new s⟩
  | absorb8 d => exact execAbsorb8_completes d hlive
  | finalize => exact execFinalize_completes hlive

theorem execWord_completes {s : State} (cw : CommandWord) (hlive : s.BufLive) :
    ∃ t, execWord cw s = .next t := by
  cases hd : decode cw with
  | error r => exact ⟨_, execWord_of_error s hd⟩
  | ok i => rw [execWord_of_ok s hd]; exact exec_completes i hlive

/-- Settles O10: only a command reads `BUF`, and where its live bytes hold values every command answers. -/
theorem liveStepsAlwaysComplete : Obligations.LiveStepsAlwaysComplete := by
  unfold Obligations.LiveStepsAlwaysComplete
  intro s hlive
  obtain ⟨-, hidle⟩ | ⟨rest, -, hreset⟩ | ⟨cw, rest, -, hword⟩ := step_eq s
  · exact ⟨_, hidle⟩
  · exact ⟨_, hreset⟩
  · rw [hword]
    exact execWord_completes cw hlive

/-- `ABSORB8` in `ACC` stays there and responds `OK`, whether or not it completes a block. -/
theorem execAbsorb8_acc_row {s t : State} {d : Byte} (he : exec (.absorb8 d) s = .next t)
    (hp : s.phase = .acc) : t.phase = .acc ∧ t.response = some .ok := by
  obtain ⟨hfin, -⟩ | ⟨-, -, rfl⟩ | ⟨-, -, B, -, rfl⟩ := execAbsorb8_cases he
  · cases hfin.symm.trans hp
  · exact ⟨hp, rfl⟩
  · exact ⟨hp, rfl⟩

/-- Settles O16: one row for each phase and decoded word, from what the word's meaning answers there. -/
theorem transitionTable : Obligations.TransitionTable := by
  unfold Obligations.TransitionTable
  intro s cw hlive
  obtain ⟨t, ht⟩ := execWord_completes cw hlive
  refine ⟨t, ht, ?_⟩
  cases hd : decode cw with
  | error r =>
    cases (execWord_of_error s hd).symm.trans ht
    cases hp : s.phase with
    | acc => exact ⟨hp, rfl⟩
    | fin => exact ⟨hp, rfl⟩
  | ok i =>
    rw [execWord_of_ok s hd] at ht
    cases i with
    | new =>
      cases (exec_new s).symm.trans ht
      cases s.phase with
      | acc => exact ⟨rfl, rfl⟩
      | fin => exact ⟨rfl, rfl⟩
    | absorb8 d =>
      cases hp : s.phase with
      | acc => exact execAbsorb8_acc_row ht hp
      | fin =>
        cases (exec_absorb8_fin d hp).symm.trans ht
        exact ⟨hp, rfl⟩
    | finalize =>
      cases hp : s.phase with
      | acc => exact execFinalize_response ht
      | fin =>
        cases (exec_finalize_fin hp).symm.trans ht
        exact ⟨hp, rfl⟩

end Sys2Proof.Machine
end

section
/-! SUPPORT. What every step keeps (spec 10_state.md R21, R25, R30, R33): the invariant, and that nothing
stale is left behind; one lemma per kind of step for each. The obligations follow. -/

namespace Sys2Proof.Machine

open Sys2Proof

/-! ### The invariant -/

theorem recordOk_raise {s : State} (c : FaultCode) (hs : s.RecordOk) : (raise c s).RecordOk := by
  obtain ⟨hthree, hzero⟩ := hs
  simp only [State.RecordOk, raise_err, raise_cause]
  cases herr : s.err with
  | false =>
    rw [if_neg Bool.false_ne_true]
    cases c <;> decide
  | true => simpa [hthree, herr] using hzero

theorem bufLive_of_fill_eq_zero {s : State} (hf : fill s = 0) : s.BufLive := by
  rw [State.BufLive, hf]
  exact fun i hi => absurd hi (Nat.not_lt_zero i)

/-- The byte stored joins the live bytes. -/
theorem bufLive_putByte {s : State} (d : Byte) (hlive : s.BufLive) : (putByte d s).BufLive := by
  intro i hi
  have hlt := fill_lt s
  rw [fill_putByte] at hi
  rw [putByte_buf, Store.get?_set]
  by_cases hlast : i = fill s
  · rw [if_pos hlast]
    rfl
  · rw [if_neg hlast]
    exact hlive i (by omega)

/-- After a block completes no byte of `BUF` is live (R63). -/
theorem fill_putByte_of_last (d : Byte) {s : State} (hf : fill s = 63) : fill (putByte d s) = 0 := by
  rw [fill_putByte, hf]

theorem inv_raise {s : State} (c : FaultCode) (hs : s.Inv) : (raise c s).Inv := by
  obtain ⟨hbuf, hpbuf, hlive, hrec⟩ := hs
  exact ⟨hbuf, hpbuf, hlive, recordOk_raise c hrec⟩

theorem inv_reset : State.reset.Inv := by decide

theorem inv_execNew {s t : State} (he : exec .new s = .next t) (hs : s.Inv) : t.Inv := by
  obtain ⟨-, hpbuf, -, hrec⟩ := hs
  cases he
  exact ⟨rfl, hpbuf, bufLive_of_fill_eq_zero rfl, hrec⟩

theorem inv_execAbsorb8 {s t : State} {d : Byte} (he : exec (.absorb8 d) s = .next t) (hs : s.Inv) :
    t.Inv := by
  obtain ⟨-, rfl⟩ | ⟨-, -, rfl⟩ | ⟨-, hf, B, -, rfl⟩ := execAbsorb8_cases he
  · exact inv_raise _ hs
  · obtain ⟨hbuf, hpbuf, hlive, hrec⟩ := hs
    exact ⟨Store.set_wf d (fill_lt s) hbuf, hpbuf, bufLive_putByte d hlive, hrec⟩
  · obtain ⟨-, hpbuf, -, hrec⟩ := hs
    exact ⟨rfl, hpbuf, bufLive_of_fill_eq_zero (fill_putByte_of_last d hf), hrec⟩

theorem inv_execFinalize {s t : State} (he : exec .finalize s = .next t) (hs : s.Inv) : t.Inv := by
  obtain ⟨hbuf, hpbuf, hlive, hrec⟩ := hs
  cases hp : s.phase with
  | fin =>
    cases (exec_finalize_fin hp).symm.trans he
    exact ⟨hbuf, hpbuf, hlive, hrec⟩
  | acc =>
    obtain ⟨R, -, rfl⟩ := execFinalize_acc_cases he hp
    exact ⟨hbuf, rfl, hlive, hrec⟩

theorem inv_exec {s t : State} {i : Instr} (he : exec i s = .next t) (hs : s.Inv) : t.Inv := by
  cases i with
  | new => exact inv_execNew he hs
  | absorb8 d => exact inv_execAbsorb8 he hs
  | finalize => exact inv_execFinalize he hs

/-- Settles O9, one case per kind of step; the host's inputs are no part of the invariant. -/
theorem everyStepKeepsInvariant : Obligations.EveryStepKeepsInvariant := by
  unfold Obligations.EveryStepKeepsInvariant
  intro s t hs hstep
  cases stepped_of_step hstep with
  | idle hp => exact hs
  | reset hp => exact inv_reset
  | reserved hp hd => exact inv_raise _ hs
  | command hp hd he => exact inv_exec he hs

/-! ### Nothing stale -/

theorem nothingStale_reset : State.reset.NothingStale :=
  ⟨rfl, rfl, rfl, rfl, rfl, fun _ _ => rfl⟩

theorem nothingStale_raise {s : State} (c : FaultCode) (hs : s.NothingStale) :
    (raise c s).NothingStale := hs

theorem nothingStale_execNew {s t : State} (he : exec .new s = .next t) (hs : s.NothingStale) :
    t.NothingStale := by
  obtain ⟨hwv, hw, hpbuf, ht, hj, -⟩ := hs
  cases he
  exact ⟨hwv, hw, hpbuf, ht, hj, fun _ _ => rfl⟩

/-- The byte stored is live, and those past it are untouched. -/
theorem stale_putByte {s : State} (d : Byte) (hf : fill s ≠ 63)
    (hstale : ∀ a, fill s ≤ a → s.buf.get? a = none) {a : Nat} (ha : fill (putByte d s) ≤ a) :
    (putByte d s).buf.get? a = none := by
  have hlt := fill_lt s
  rw [fill_putByte] at ha
  rw [putByte_buf, Store.get?_set_ne _ _ (by omega), hstale a (by omega)]

theorem nothingStale_execAbsorb8 {s t : State} {d : Byte} (he : exec (.absorb8 d) s = .next t)
    (hs : s.NothingStale) : t.NothingStale := by
  obtain ⟨-, rfl⟩ | ⟨-, hf, rfl⟩ | ⟨-, -, B, -, rfl⟩ := execAbsorb8_cases he
  · exact nothingStale_raise _ hs
  · obtain ⟨hwv, hw, hpbuf, ht, hj, hstale⟩ := hs
    exact ⟨hwv, hw, hpbuf, ht, hj, fun _ ha => stale_putByte d hf hstale ha⟩
  · obtain ⟨-, -, hpbuf, -, hj, -⟩ := hs
    exact ⟨rfl, rfl, hpbuf, rfl, hj, fun _ _ => rfl⟩

theorem nothingStale_execFinalize {s t : State} (he : exec .finalize s = .next t)
    (hs : s.NothingStale) : t.NothingStale := by
  cases hp : s.phase with
  | fin =>
    cases (exec_finalize_fin hp).symm.trans he
    exact hs
  | acc =>
    obtain ⟨R, -, rfl⟩ := execFinalize_acc_cases he hp
    obtain ⟨-, -, -, -, -, hstale⟩ := hs
    exact ⟨rfl, rfl, rfl, rfl, rfl, hstale⟩

theorem nothingStale_exec {s t : State} {i : Instr} (he : exec i s = .next t) (hs : s.NothingStale) :
    t.NothingStale := by
  cases i with
  | new => exact nothingStale_execNew he hs
  | absorb8 d => exact nothingStale_execAbsorb8 he hs
  | finalize => exact nothingStale_execFinalize he hs

/-- Settles O54, one case per kind of step; a command forgets what it leaves behind (log 6). -/
theorem everyStepLeavesNothingStale : Obligations.EveryStepLeavesNothingStale := by
  unfold Obligations.EveryStepLeavesNothingStale
  intro s t hs hstep
  cases stepped_of_step hstep with
  | idle hp => exact hs
  | reset hp => exact nothingStale_reset
  | reserved hp hd => exact nothingStale_raise _ hs
  | command hp hd he => exact nothingStale_exec he hs

/-- Settles O8: the reset state is empty, and its fault record is clear. -/
theorem resetMeetsInvariant : Obligations.ResetMeetsInvariant := by
  unfold Obligations.ResetMeetsInvariant
  exact ⟨inv_reset, ⟨⟨rfl, rfl, rfl⟩, rfl, rfl⟩, nothingStale_reset⟩

end Sys2Proof.Machine
end

section
/-! SUPPORT. Scratch and stale bytes are never observed (spec 10_state.md R30): the relation `AgreeLive` is
a simulation of the machine by itself, one lemma per command. The obligation follows. -/

namespace Sys2Proof.Machine

open Sys2Proof

theorem State.AgreeLive.withPending {s s' : State} (hag : s.AgreeLive s') (rest : List HostInput) :
    State.AgreeLive { s with pending := rest } { s' with pending := rest } := by
  obtain ⟨hh, hlen, hphase, herr, hcause, -, hresponse, hbuf⟩ := hag
  exact ⟨hh, hlen, hphase, herr, hcause, rfl, hresponse, hbuf⟩

/-- The response is written by every step, so it need not agree before. -/
theorem State.AgreeLive.respond {s s' : State} (hag : s.AgreeLive s') (r : Response) :
    (respond r s).AgreeLive (respond r s') := by
  obtain ⟨hh, hlen, hphase, herr, hcause, hpending, -, hbuf⟩ := hag
  exact ⟨hh, hlen, hphase, herr, hcause, hpending, rfl, hbuf⟩

theorem State.AgreeLive.raise {s s' : State} (hag : s.AgreeLive s') (c : FaultCode) :
    (raise c s).AgreeLive (raise c s') := by
  obtain ⟨hh, hlen, hphase, herr, hcause, hpending, -, hbuf⟩ := hag
  exact ⟨hh, hlen, hphase, rfl, by simp only [raise_cause, herr, hcause], hpending, rfl, hbuf⟩

theorem State.AgreeLive.fill_eq {s s' : State} (hag : s.AgreeLive s') : fill s = fill s' := by
  obtain ⟨-, hlen, -⟩ := hag
  exact fill_congr hlen

theorem State.AgreeLive.tail {s s' : State} {R : List Byte} (hag : s.AgreeLive s') (hR : s.Tail R) :
    s'.Tail R := by
  have hfill := hag.fill_eq
  obtain ⟨-, -, -, -, -, -, -, hbuf⟩ := hag
  obtain ⟨hlen, hbytes⟩ := hR
  rw [State.Tail, ← hfill]
  exact ⟨hlen, fun i hi => (hbuf i hi).symm.trans (hbytes i hi)⟩

/-- After a byte is stored the two buffers agree on it too. -/
theorem State.AgreeLive.putByte_get? {s s' : State} (hag : s.AgreeLive s') (d : Byte) {i : Nat}
    (hi : i ≤ fill s) : (putByte d s).buf.get? i = (putByte d s').buf.get? i := by
  have hfill := hag.fill_eq
  obtain ⟨-, -, -, -, -, -, -, hbuf⟩ := hag
  rw [putByte_buf, putByte_buf, Store.get?_set, Store.get?_set, ← hfill]
  by_cases hlast : i = fill s
  · rw [if_pos hlast, if_pos hlast]
  · rw [if_neg hlast, if_neg hlast, hbuf i (by omega)]

theorem State.AgreeLive.putByte {s s' : State} (hag : s.AgreeLive s') (d : Byte) :
    (putByte d s).AgreeLive (putByte d s') := by
  have hbyte := fun i => hag.putByte_get? d (i := i)
  obtain ⟨hh, hlen, hphase, herr, hcause, hpending, hresponse, -⟩ := hag
  refine ⟨hh, by rw [putByte_len, putByte_len, hlen], hphase, herr, hcause, hpending, hresponse, ?_⟩
  intro i hi
  rw [fill_putByte] at hi
  exact hbyte i (by omega)

/-- `COMPRESS` folds the same block into the same `H`, whatever the scratch holds. -/
theorem State.AgreeLive.compressBlock {s s' : State} (hag : s.AgreeLive s') (B : Block) :
    (compressBlock B s).AgreeLive (compressBlock B s') := by
  obtain ⟨hh, hlen, hphase, herr, hcause, hpending, hresponse, hbuf⟩ := hag
  refine ⟨?_, hlen, hphase, herr, hcause, hpending, hresponse, hbuf⟩
  rw [compressBlock_h_eq_compress, compressBlock_h_eq_compress, hh]

theorem State.AgreeLive.forgetBuf {s s' : State} (hag : s.AgreeLive s') :
    (forgetBuf s).AgreeLive (forgetBuf s') := by
  obtain ⟨hh, hlen, hphase, herr, hcause, hpending, hresponse, -⟩ := hag
  exact ⟨hh, hlen, hphase, herr, hcause, hpending, hresponse, fun _ _ => rfl⟩

theorem State.AgreeLive.startMessage {s s' : State} (hag : s.AgreeLive s') :
    (startMessage s).AgreeLive (startMessage s') := by
  obtain ⟨-, -, -, herr, hcause, hpending, hresponse, -⟩ := hag
  exact ⟨rfl, rfl, rfl, herr, hcause, hpending, hresponse, fun i hi => absurd hi (Nat.not_lt_zero i)⟩

theorem State.AgreeLive.presented {s s' : State} (hag : s.AgreeLive s') (R : List Byte) :
    (presented R s).AgreeLive (presented R s') := by
  obtain ⟨hh, hlen, -, herr, hcause, hpending, -, hbuf⟩ := hag
  have hchain : finalChain R s = finalChain R s' := by rw [finalChain, finalChain, hh, hlen]
  refine ⟨hchain, hlen, rfl, herr, hcause, hpending, ?_, hbuf⟩
  exact congrArg (fun X => some (Response.digest (serialize X))) hchain

theorem agreeLive_execAbsorb8 {s s' t : State} {d : Byte} (hag : s.AgreeLive s')
    (he : exec (.absorb8 d) s = .next t) :
    ∃ t', exec (.absorb8 d) s' = .next t' ∧ t.AgreeLive t' := by
  have hfill := hag.fill_eq
  have hphase : s.phase = s'.phase := by
    obtain ⟨-, -, hphase, -⟩ := hag
    exact hphase
  obtain ⟨hp, rfl⟩ | ⟨hp, hf, rfl⟩ | ⟨hp, hf, B, hB, rfl⟩ := execAbsorb8_cases he
  · exact ⟨_, exec_absorb8_fin d (hphase ▸ hp), hag.raise _⟩
  · exact ⟨_, exec_absorb8_store d (hphase ▸ hp) (hfill ▸ hf), (hag.putByte d).respond _⟩
  · have hsame : memRead (putByte d s).buf 0 64 = memRead (putByte d s').buf 0 64 :=
      memRead_congr fun i hi => hag.putByte_get? d (by omega)
    exact ⟨_, exec_absorb8_block (hphase ▸ hp) (hfill ▸ hf) (hsame ▸ hB),
      ((hag.putByte d).compressBlock B).forgetBuf.respond _⟩

theorem agreeLive_execFinalize {s s' t : State} (hag : s.AgreeLive s') (he : exec .finalize s = .next t) :
    ∃ t', exec .finalize s' = .next t' ∧ t.AgreeLive t' := by
  have hlive := hag
  obtain ⟨hh, -, hphase, -⟩ := hlive
  cases hp : s.phase with
  | fin =>
    cases (exec_finalize_fin hp).symm.trans he
    refine ⟨_, exec_finalize_fin (hphase ▸ hp), ?_⟩
    rw [← hh]
    exact hag.respond _
  | acc =>
    obtain ⟨R, hR, rfl⟩ := execFinalize_acc_cases he hp
    exact ⟨_, exec_finalize_of_tail (hphase ▸ hp) (hag.tail hR), hag.presented R⟩

theorem agreeLive_exec {s s' t : State} {i : Instr} (hag : s.AgreeLive s') (he : exec i s = .next t) :
    ∃ t', exec i s' = .next t' ∧ t.AgreeLive t' := by
  cases i with
  | new =>
    cases he
    exact ⟨_, exec_new s', hag.startMessage.forgetBuf.respond _⟩
  | absorb8 d => exact agreeLive_execAbsorb8 hag he
  | finalize => exact agreeLive_execFinalize hag he

/-- Settles O28: states that agree take the same input, and each kind of step keeps the agreement. -/
theorem staleStorageIsNeverObserved : Obligations.StaleStorageIsNeverObserved := by
  unfold Obligations.StaleStorageIsNeverObserved
  intro s s' t hag hstep
  have hlive := hag
  obtain ⟨hh, hlen, hphase, herr, hcause, hpending, -, hbuf⟩ := hlive
  cases stepped_of_step hstep with
  | idle hp =>
    exact ⟨_, step_of_nil (hpending ▸ hp), hh, hlen, hphase, herr, hcause, hpending, rfl, hbuf⟩
  | reset hp =>
    exact ⟨_, step_of_reset (hpending ▸ hp), rfl, rfl, rfl, rfl, rfl, rfl, rfl, fun _ _ => rfl⟩
  | reserved hp hd => exact ⟨_, step_of_error (hpending ▸ hp) hd, (hag.withPending _).raise _⟩
  | command hp hd he =>
    rw [step_of_ok (hpending ▸ hp) hd]
    exact agreeLive_exec (hag.withPending _) he

end Sys2Proof.Machine
end

section
/-! SUPPORT. What the commands leave unchanged (spec 40_commands.md R62 to R64), and the rules about the
whole machine that follow: what changes `H` and `PHASE` (10_state.md R16, R24), the fault record (R25, R110)
and the outputs (R27, R28, 44_digest.md R101). -/

namespace Sys2Proof.Machine

open Sys2Proof

theorem sameScratch_rfl (s : State) : s.SameScratch s := ⟨rfl, rfl, rfl, rfl, rfl⟩

theorem sameScratch_raise (c : FaultCode) (s : State) : (raise c s).SameScratch s := sameScratch_rfl s

theorem not_acc_of_fin {s : State} (hfin : s.phase = .fin) : s.phase ≠ .acc := by
  rw [hfin]
  decide

/-- Settles O18, by what the command did: fault, store one byte, or complete a block. -/
theorem absorb8Frame : Obligations.Absorb8Frame := by
  unfold Obligations.Absorb8Frame
  intro s t d he
  obtain ⟨hfin, rfl⟩ | ⟨hacc, hf, rfl⟩ | ⟨hacc, hf, B, -, rfl⟩ := execAbsorb8_cases he
  · exact ⟨rfl, rfl, rfl, rfl, fun _ => ⟨rfl, rfl⟩, fun hacc => absurd hacc (not_acc_of_fin hfin),
      fun _ => ⟨rfl, rfl, rfl, rfl, fun _ _ => rfl⟩, fun hacc => absurd hacc (not_acc_of_fin hfin)⟩
  · exact ⟨rfl, rfl, rfl, rfl, fun hfin => absurd hacc (not_acc_of_fin hfin), fun _ => ⟨rfl, rfl⟩,
      fun _ => ⟨rfl, rfl, rfl, rfl, fun _ hne => Store.get?_set_ne _ _ hne⟩,
      fun _ hlast => absurd hlast hf⟩
  · exact ⟨rfl, rfl, rfl, rfl, fun hfin => absurd hacc (not_acc_of_fin hfin), fun _ => ⟨rfl, rfl⟩,
      fun hother => absurd hother (by simp [hacc, hf]), fun _ _ => ⟨rfl, rfl, rfl, fun _ => rfl⟩⟩

/-- Settles O19, by phase: the digest already held, or the padded tail compressed. -/
theorem finalizeFrame : Obligations.FinalizeFrame := by
  unfold Obligations.FinalizeFrame
  intro s t he
  cases hp : s.phase with
  | fin =>
    cases (exec_finalize_fin hp).symm.trans he
    exact ⟨rfl, rfl, rfl, rfl, rfl, fun _ => ⟨rfl, hp, sameScratch_rfl s⟩, nofun⟩
  | acc =>
    obtain ⟨R, -, rfl⟩ := execFinalize_acc_cases he hp
    exact ⟨rfl, rfl, rfl, rfl, rfl, nofun, fun _ => ⟨rfl, rfl, rfl, rfl, fun _ => rfl⟩⟩

/-- Settles O20: the command writes `H`, `LEN` and `PHASE` as reset does, and no byte is live then. -/
theorem newFrame : Obligations.NewFrame := by
  unfold Obligations.NewFrame
  intro s t he
  cases (exec_new s).symm.trans he
  exact ⟨rfl, rfl, sameScratch_rfl s, rfl, fun _ => rfl,
    rfl, rfl, rfl, rfl, rfl, rfl, rfl, fun _ _ => rfl⟩

/-- Settles O21: every other case of a command leaves `H` alone, and so do idling and fault entry. -/
theorem onlyTheseInputsChangeChain : Obligations.OnlyTheseInputsChangeChain := by
  unfold Obligations.OnlyTheseInputsChangeChain
  intro s t hstep hne
  cases stepped_of_step hstep with
  | idle hp => exact absurd rfl hne
  | reset hp => exact .inl ⟨_, hp⟩
  | reserved hp hd => exact absurd rfl hne
  | @command cw rest i t hp hd he =>
    refine .inr ⟨cw, rest, hp, ?_⟩
    cases i with
    | new => exact .inl hd
    | absorb8 d =>
      obtain ⟨-, rfl⟩ | ⟨-, -, rfl⟩ | ⟨hacc, hf, -⟩ := execAbsorb8_cases he
      · exact absurd rfl hne
      · exact absurd rfl hne
      · exact .inr (.inl ⟨d, hd, hacc, hf⟩)
    | finalize =>
      obtain ⟨-, rfl⟩ | ⟨hacc, -⟩ := execFinalize_cases he
      · exact absurd rfl hne
      · exact .inr (.inr ⟨hd, hacc⟩)

/-- Settles O22: `NEW` ends in `ACC`, `FINALIZE` in `FIN`, and `ABSORB8` keeps the phase. -/
theorem onlyTheseInputsChangePhase : Obligations.OnlyTheseInputsChangePhase := by
  unfold Obligations.OnlyTheseInputsChangePhase
  intro s t hstep hne
  cases stepped_of_step hstep with
  | idle hp => exact absurd rfl hne
  | reset hp => exact .inr ⟨rfl, .inl ⟨_, hp⟩⟩
  | reserved hp hd => exact absurd rfl hne
  | @command cw rest i t hp hd he =>
    cases i with
    | new =>
      cases he
      exact .inr ⟨rfl, .inr ⟨cw, rest, hp, hd⟩⟩
    | absorb8 d =>
      obtain ⟨hphase, -⟩ := absorb8Frame _ _ _ he
      exact absurd hphase hne
    | finalize =>
      obtain ⟨hfin, -⟩ := execFinalize_response he
      exact .inl ⟨hfin, cw, rest, hp, hd⟩

/-- A command leaves the fault record alone, or does nothing but enter a fault (R109). -/
theorem exec_record {s t : State} {i : Instr} (he : exec i s = .next t) :
    (t.err = s.err ∧ t.cause = s.cause) ∨ ∃ c, t = raise c s := by
  cases i with
  | new =>
    cases he
    exact .inl ⟨rfl, rfl⟩
  | absorb8 d =>
    obtain ⟨-, rfl⟩ | ⟨-, -, rfl⟩ | ⟨-, -, B, -, rfl⟩ := execAbsorb8_cases he
    · exact .inr ⟨_, rfl⟩
    · exact .inl ⟨rfl, rfl⟩
    · exact .inl ⟨rfl, rfl⟩
  | finalize =>
    obtain ⟨-, -, herr, hcause, -⟩ := finalizeFrame _ _ he
    exact .inl ⟨herr, hcause⟩

/-- So does every step, but for a reset, which clears the record (R118). -/
theorem step_record {s t : State} (hstep : step s = .next t) :
    (∃ rest, s.pending = .reset :: rest ∧ t.err = false) ∨ (t.err = s.err ∧ t.cause = s.cause) ∨
      ∃ c rest, t = raise c { s with pending := rest } := by
  cases stepped_of_step hstep with
  | idle hp => exact .inr (.inl ⟨rfl, rfl⟩)
  | reset hp => exact .inl ⟨_, hp, rfl⟩
  | reserved hp hd => exact .inr (.inr ⟨_, _, rfl⟩)
  | command hp hd he =>
    obtain hsame | ⟨c, hraise⟩ := exec_record he
    · exact .inr (.inl hsame)
    · exact .inr (.inr ⟨c, _, hraise⟩)

/-- Settles O23: fault entry does not overwrite the cause of a fault already recorded. -/
theorem faultRecordIsSticky : Obligations.FaultRecordIsSticky := by
  unfold Obligations.FaultRecordIsSticky
  intro s t hstep herr hnoreset
  obtain ⟨rest, hp, -⟩ | ⟨herr', hcause⟩ | ⟨c, rest, rfl⟩ := step_record hstep
  · exact absurd hp (hnoreset rest)
  · exact ⟨herr'.trans herr, hcause⟩
  · exact ⟨raise_err _ _, (raise_cause _ _).trans (if_pos herr)⟩

/-- Settles O24: where the record changes and is set, the step was fault entry. -/
theorem onlyFaultsAreRecorded : Obligations.OnlyFaultsAreRecorded := by
  unfold Obligations.OnlyFaultsAreRecorded
  intro s t hstep hclear hset
  obtain ⟨-, -, herr⟩ | ⟨herr, -⟩ | ⟨c, rest, rfl⟩ := step_record hstep
  · cases herr.symm.trans hset
  · cases (herr.trans hclear).symm.trans hset
  · have hfirst : ¬ s.err = true := by rw [hclear]; decide
    exact ⟨c, raise_response _ _, (raise_cause _ _).trans (if_neg hfirst), rfl, rfl, rfl, rfl,
      sameScratch_raise _ _⟩

/-- Settles O25: each part of `STATUS` is found at its place in the concatenation. -/
theorem statusLayout : Obligations.StatusLayout := by
  unfold Obligations.StatusLayout
  intro s
  refine ⟨?_, ?_, ?_⟩
  · rw [status, BitVec.getLsbD_append]
    cases s.phase <;> rfl
  · rw [status, BitVec.getLsbD_append, BitVec.getLsbD_append]
    cases s.err <;> rfl
  · rw [status, BitVec.append_assoc]
    exact BitVec.extractLsb'_append_eq_left

/-- Settles O26: `DIGEST` is valid in `FIN` only. -/
theorem digestValidExactlyWhenFinalized : Obligations.DigestValidExactlyWhenFinalized := by
  unfold Obligations.DigestValidExactlyWhenFinalized
  refine fun s => ⟨readDigest_of_fin, fun hp => ?_⟩
  rw [readDigest, digestValid, hp]
  rfl

/-- Settles O27: in `FIN` every word but `NEW` enters a fault or presents the digest already held. -/
theorem digestStableUntilNew : Obligations.DigestStableUntilNew := by
  unfold Obligations.DigestStableUntilNew
  intro s cw hp hnew
  cases hd : decode cw with
  | error r =>
    exact ⟨_, execWord_of_error s hd, hp, rfl, readDigest_congr (raise_phase _ _) (raise_h _ _)⟩
  | ok i =>
    rw [execWord_of_ok s hd]
    cases i with
    | new => exact absurd hd hnew
    | absorb8 d =>
      exact ⟨_, exec_absorb8_fin d hp, hp, rfl, readDigest_congr (raise_phase _ _) (raise_h _ _)⟩
    | finalize =>
      exact ⟨_, exec_finalize_fin hp, hp, rfl, readDigest_congr (respond_phase _ _) (respond_h _ _)⟩

end Sys2Proof.Machine
end

section
/-! SUPPORT. Chains of blocks over parts of a byte sequence, and the padded message as complete blocks and
padded tail (spec 41_padding.md R75, R78, R80). The obligations follow. -/

namespace Sys2Proof.Machine

open Sys2Proof

theorem blockAt_append_left {P : List Byte} (Q : List Byte) {n : Nat} (hn : 64 * n + 64 ≤ P.length) :
    blockAt (P ++ Q) n = blockAt P n := by
  ext i hi : 1
  have ha : 64 * n + i < P.length := by omega
  simp [blockAt, List.getElem?_append_left ha]

theorem blockAt_append_right {P : List Byte} (Q : List Byte) {m : Nat} (hm : P.length = 64 * m) (n : Nat) :
    blockAt (P ++ Q) (m + n) = blockAt Q n := by
  ext i hi : 1
  have hle : P.length ≤ 64 * (m + n) + i := by omega
  have hidx : 64 * (m + n) + i - P.length = 64 * n + i := by omega
  simp [blockAt, List.getElem?_append_right hle, hidx]

/-- A chain of blocks that lie in the first of two parts is that of this part alone. -/
theorem chainBlocks_append_left (X : Chain) {P : List Byte} (Q : List Byte) :
    ∀ {n : Nat}, 64 * n ≤ P.length → chainBlocks X (P ++ Q) n = chainBlocks X P n
  | 0, _ => rfl
  | n + 1, hn => by
    rw [chainBlocks, chainBlocks, chainBlocks_append_left X Q (by omega), blockAt_append_left Q (by omega)]

/-- A chain over two sequences, the first of whole blocks, goes on from where the first ends (R95). -/
theorem chainBlocks_append (X : Chain) {P : List Byte} (Q : List Byte) {m : Nat}
    (hm : P.length = 64 * m) :
    ∀ n : Nat, chainBlocks X (P ++ Q) (m + n) = chainBlocks (chainBlocks X P m) Q n
  | 0 => chainBlocks_append_left X Q (by omega)
  | n + 1 => by
    rw [← Nat.add_assoc, chainBlocks, chainBlocks_append X Q hm n, blockAt_append_right Q hm, chainBlocks]

/-- The complete blocks of a message (R80). -/
def completeBlocks (M : List Byte) : List Byte := M.take (M.length / 64 * 64)

/-- The bytes of a message after its complete blocks (R80). -/
def tailBytes (M : List Byte) : List Byte := M.drop (M.length / 64 * 64)

theorem completeBlocks_append_tailBytes (M : List Byte) : completeBlocks M ++ tailBytes M = M :=
  List.take_append_drop _ _

theorem completeBlocks_length (M : List Byte) : (completeBlocks M).length = 64 * (M.length / 64) := by
  rw [completeBlocks, List.length_take]
  omega

theorem tailBytes_length (M : List Byte) : (tailBytes M).length = M.length % 64 := by
  rw [tailBytes, List.length_drop]
  omega

/-- The zero fill depends on the tail only. -/
theorem padZeros_mod (r : Nat) : padZeros (r % 64) = padZeros r := by
  unfold padZeros padTotal
  omega

theorem padMsg_eq (M : List Byte) : padMsg M = completeBlocks M ++ padBuild (tailBytes M) M.length := by
  calc padMsg M
      _ = padBuild (completeBlocks M ++ tailBytes M) M.length := by
        rw [completeBlocks_append_tailBytes, padMsg]
      _ = completeBlocks M ++ padBuild (tailBytes M) M.length := by
        rw [padBuild, padBuild, completeBlocks_append_tailBytes, tailBytes_length, padZeros_mod]
        simp only [← List.append_assoc, completeBlocks_append_tailBytes]

theorem padMsg_length (M : List Byte) : (padMsg M).length = padTotal M.length :=
  padBuild_length M M.length

theorem padTotal_div (r : Nat) : padTotal r / 64 = r / 64 + padTotal (r % 64) / 64 := by
  unfold padTotal
  omega

/-- Settles O39: the three sizes are linear in the quotient of `padTotal`. -/
theorem zeroFillAndBlockCount : Obligations.ZeroFillAndBlockCount := by
  unfold Obligations.ZeroFillAndBlockCount
  refine ⟨fun r => ?_, fun r hr => ?_, fun r hlo hhi => ?_⟩
  · simp only [padZeros, padTotal]
    omega
  · rw [padTotal_of_lt (by omega), if_pos hr]
  · rw [padTotal_of_lt (by omega), if_neg (by omega)]

/-- Settles O40: the padding goes after the tail, and its size depends on the tail only. -/
theorem tailAndWholeAgree : Obligations.TailAndWholeAgree := by
  unfold Obligations.TailAndWholeAgree
  refine fun M => ⟨padMsg_eq M, ?_, padMsg_length M⟩
  rw [padMsg_length, padTotal_div]

/-- Settles O49: what `W` held before is overwritten before it is read. -/
theorem scheduleDependsOnBlockAlone : Obligations.ScheduleDependsOnBlockAlone := by
  unfold Obligations.ScheduleDependsOnBlockAlone
  exact scheduleInto_eq_sched

/-- The length field counts modulo 2^64, so the wrapped counter gives the same one (R76, R106). -/
theorem padBuild_wrapped_length (R : List Byte) (L : Nat) :
    padBuild R (BitVec.ofNat 64 L).toNat = padBuild R L := by
  have hfield : padLength (BitVec.ofNat 64 L).toNat = padLength L := by
    rw [padLength, padLength, BitVec.toNat_ofNat]
    congr 1
    apply BitVec.eq_of_toNat_eq
    simp only [BitVec.toNat_ofNat]
    omega
  rw [padBuild, padBuild, hfield]

/-- `SHA256` folds the padded tail from the chain of the complete blocks (R68, R80). -/
theorem sha256_eq (M : List Byte) :
    sha256 M = serialize
      (chainBlocks (chainBlocks Config.iv M (M.length / 64)) (padBuild (tailBytes M) M.length)
        (padTotal (tailBytes M).length / 64)) := by
  have hprefix : chainBlocks Config.iv M (M.length / 64) =
      chainBlocks Config.iv (completeBlocks M) (M.length / 64) := by
    have hleft := chainBlocks_append_left Config.iv (tailBytes M) (completeBlocks_length M).ge
    rwa [completeBlocks_append_tailBytes] at hleft
  rw [sha256, padMsg_length, padTotal_div, padMsg_eq, chainBlocks_append _ _ (completeBlocks_length M),
    tailBytes_length, hprefix]

end Sys2Proof.Machine
end

section
/-! SUPPORT. What it means for a state to have absorbed a message (spec 40_commands.md R69): `NEW` starts
with the empty message, `ABSORB8` appends its byte, `FINALIZE` presents the digest. The obligations about
lifetimes follow. -/

namespace Sys2Proof.Machine

open Sys2Proof

theorem State.Absorbed.fill_eq {s : State} {M : List Byte} (hM : s.Absorbed M) :
    fill s = M.length % 64 := by
  obtain ⟨-, hlen, -, -⟩ := hM
  rw [fill, hlen, BitVec.toNat_ofNat]
  omega

theorem absorbed_nil_of_afterNew {s : State} (hs : s.AfterNew) : s.Absorbed [] := by
  obtain ⟨hh, hlen, hphase⟩ := hs
  have hfill : fill s = 0 := by rw [fill, hlen]; rfl
  exact ⟨hphase, hlen, hh, hfill.symm, fun i hi => by omega⟩

theorem execNew_afterNew {s t : State} (he : exec .new s = .next t) : t.AfterNew := by
  cases he
  exact ⟨rfl, rfl, rfl⟩

/-- Below the last offset of a block, the byte stored is appended to the tail. -/
theorem tail_putByte {s : State} {R : List Byte} (d : Byte) (hf : fill s ≠ 63) (hR : s.Tail R) :
    (putByte d s).Tail (R ++ [d]) := by
  have hlt := fill_lt s
  have hlen : (R ++ [d]).length = fill (putByte d s) := by
    rw [List.length_append, List.length_singleton, hR.1, fill_putByte]
    omega
  exact ⟨hlen, fun i hi => putByte_get? d hR (hlen ▸ hi)⟩

theorem absorbed_len_succ {s : State} {M : List Byte} (d : Byte) (hM : s.Absorbed M) :
    (putByte d s).len = BitVec.ofNat 64 (M ++ [d]).length := by
  obtain ⟨-, hlen, -, -⟩ := hM
  rw [putByte_len, hlen, List.length_append, List.length_singleton, BitVec.ofNat_add]

theorem absorbed_putByte {s : State} {M : List Byte} (d : Byte) (hM : s.Absorbed M) (hf : fill s ≠ 63) :
    (putByte d s).Absorbed (M ++ [d]) := by
  have hfill := hM.fill_eq
  have hlen := absorbed_len_succ d hM
  obtain ⟨hphase, -, hh, htail⟩ := hM
  have hsize : (M ++ [d]).length = M.length + 1 := by simp
  have hblocks : (M ++ [d]).length / 64 = M.length / 64 := by omega
  refine ⟨hphase, hlen, ?_, ?_⟩
  · rw [putByte_h, hh, hblocks, chainBlocks_append_left _ _ (by omega)]
  · rw [hblocks, List.drop_append_of_le_length (by omega)]
    exact tail_putByte d hf htail

/-- The 64th byte of a block folds that block, the last complete one of the message so far, into `H`. -/
theorem absorbed_compressBlock {s : State} {M : List Byte} (d : Byte) (hM : s.Absorbed M)
    (hf : fill s = 63) :
    (forgetBuf (compressBlock (blockAt (tailBytes M ++ [d]) 0) (putByte d s))).Absorbed (M ++ [d]) := by
  have hfill := hM.fill_eq
  have hlen := absorbed_len_succ d hM
  obtain ⟨hphase, -, hh, -⟩ := hM
  have hsize : (M ++ [d]).length = M.length + 1 := by simp
  have hblocks : (M ++ [d]).length / 64 = M.length / 64 + 1 := by omega
  have hlast : blockAt (M ++ [d]) (M.length / 64) = blockAt (tailBytes M ++ [d]) 0 := by
    have hblock := blockAt_append_right (tailBytes M ++ [d]) (completeBlocks_length M) 0
    rwa [← List.append_assoc, completeBlocks_append_tailBytes] at hblock
  have hempty : (M ++ [d]).drop ((M ++ [d]).length / 64 * 64) = [] :=
    List.drop_eq_nil_of_le (by omega)
  refine ⟨hphase, hlen, ?_, ?_⟩
  · rw [forgetBuf_h, compressBlock_h_eq_compress, putByte_h, hh, hblocks, chainBlocks, hlast,
      chainBlocks_append_left _ _ (by omega)]
  · rw [hempty]
    exact ⟨(fill_putByte_of_last d hf).symm, fun _ _ => rfl⟩

/-- `ABSORB8` appends its byte to the message absorbed, and records no fault. -/
theorem State.Absorbed.absorb8 {s : State} {M : List Byte} (hM : s.Absorbed M) (d : Byte) :
    ∃ t, exec (.absorb8 d) s = .next t ∧ t.Absorbed (M ++ [d]) ∧
      t.err = s.err ∧ t.cause = s.cause ∧ t.pending = s.pending := by
  have hparts := hM
  obtain ⟨hp, -, -, htail⟩ := hparts
  by_cases hf : fill s = 63
  · exact ⟨_, exec_absorb8_block_of_tail d hp hf htail, absorbed_compressBlock d hM hf, rfl, rfl, rfl⟩
  · exact ⟨_, exec_absorb8_store d hp hf, absorbed_putByte d hM hf, rfl, rfl, rfl⟩

/-- `FINALIZE` presents the digest of the message absorbed. -/
theorem State.Absorbed.finalize {s : State} {M : List Byte} (hM : s.Absorbed M) :
    ∃ t, exec .finalize s = .next t ∧ t.response = some (.digest (sha256 M)) ∧
      readDigest t = some (sha256 M) := by
  obtain ⟨hp, hlen, hh, htail⟩ := hM
  have hdigest : serialize (finalChain (tailBytes M) s) = sha256 M := by
    rw [finalChain, hh, hlen, padBuild_wrapped_length, sha256_eq]
  refine ⟨_, exec_finalize_of_tail hp htail, ?_, ?_⟩
  · exact congrArg (fun D => some (Response.digest D)) hdigest
  · exact (readDigest_of_fin rfl).trans (congrArg some hdigest)

/-- Settles O31: the empty message after `NEW`, and one byte at a time. -/
theorem absorbedMessageGrowsByByte : Obligations.AbsorbedMessageGrowsByByte := by
  unfold Obligations.AbsorbedMessageGrowsByByte
  refine ⟨fun s => ⟨_, exec_new s, absorbed_nil_of_afterNew (execNew_afterNew (exec_new s))⟩,
    fun s M d hM => ?_⟩
  obtain ⟨t, he, habs, -⟩ := hM.absorb8 d
  exact ⟨t, he, habs⟩

/-- Settles O32: the final blocks go on from the chain of the complete ones. -/
theorem finalizePresentsSha256 : Obligations.FinalizePresentsSha256 := by
  unfold Obligations.FinalizePresentsSha256
  exact fun s M hM => hM.finalize

/-! ### Sequences of commands -/

theorem absorbAll_cons {s t : State} {d : Byte} (S : List Byte) (he : exec (.absorb8 d) s = .next t) :
    absorbAll (d :: S) s = absorbAll S t := by
  rw [absorbAll, he]

theorem absorbAll_append {s t : State} {S : List Byte} (S' : List Byte) (hS : absorbAll S s = .next t) :
    absorbAll (S ++ S') s = absorbAll S' t := by
  induction S generalizing s with
  | nil =>
    cases hS
    rfl
  | cons d S ih =>
    rw [absorbAll] at hS
    rw [List.cons_append, absorbAll]
    split at hS
    · exact ih hS
    · cases hS
    · cases hS

theorem runWords_cons {s t : State} {cw : CommandWord} (cws : List CommandWord)
    (he : execWord cw s = .next t) : runWords (cw :: cws) s = runWords cws t := by
  rw [runWords, he]

theorem runWords_append {s t : State} {cws : List CommandWord} (cws' : List CommandWord)
    (hrun : runWords cws s = .next t) : runWords (cws ++ cws') s = runWords cws' t := by
  induction cws generalizing s with
  | nil =>
    cases hrun
    rfl
  | cons cw cws ih =>
    rw [runWords] at hrun
    rw [List.cons_append, runWords]
    split at hrun
    · exact ih hrun
    · cases hrun
    · cases hrun

theorem execWord_encode (i : Instr) (s : State) : execWord (encode i) s = exec i s :=
  execWord_of_ok s (decode_encode i)

/-- `ABSORB(S)` appends `S` to the message absorbed (R66). -/
theorem State.Absorbed.absorbAll {s : State} {M : List Byte} (hM : s.Absorbed M) (S : List Byte) :
    ∃ t, absorbAll S s = .next t ∧ t.Absorbed (M ++ S) ∧
      t.err = s.err ∧ t.cause = s.cause ∧ t.pending = s.pending := by
  induction S generalizing s M with
  | nil => exact ⟨s, rfl, by rwa [List.append_nil], rfl, rfl, rfl⟩
  | cons d S ih =>
    obtain ⟨u, hu, habs, herr, hcause, hpending⟩ := hM.absorb8 d
    obtain ⟨t, ht, habs', herr', hcause', hpending'⟩ := ih habs
    rw [List.append_assoc, List.singleton_append] at habs'
    exact ⟨t, (absorbAll_cons S hu).trans ht, habs', herr'.trans herr, hcause'.trans hcause,
      hpending'.trans hpending⟩

/-- A second fault of the same kind changes nothing more. -/
theorem raise_raise (c : FaultCode) (s : State) : raise c (raise c s) = raise c s := by
  rw [raise_eq c (raise c s), raise_err, raise_cause, if_pos rfl]
  rfl

/-- Once a byte has been dropped, so are all that follow. -/
theorem absorbAll_raise {s : State} (hp : s.phase = .fin) (S : List Byte) :
    absorbAll S (raise .usageFault s) = .next (raise .usageFault s) := by
  induction S with
  | nil => rfl
  | cons d S ih =>
    have hdrop := exec_absorb8_fin (s := raise .usageFault s) d hp
    rw [raise_raise] at hdrop
    rw [absorbAll_cons S hdrop, ih]

/-- Settles O35: by induction over the bytes in `ACC`, and by the first byte dropped in `FIN`. -/
theorem absorbExtendsMessage : Obligations.AbsorbExtendsMessage := by
  unfold Obligations.AbsorbExtendsMessage
  refine ⟨fun s M S hM => hM.absorbAll S, fun s M S₁ S₂ hM => ?_, fun s d S hp => ?_⟩
  · obtain ⟨t, ht, habs, -⟩ := hM.absorbAll S₁
    obtain ⟨u, hu, habs', -⟩ := habs.absorbAll S₂
    exact ⟨t, u, ht, hu, (absorbAll_append S₂ ht).trans hu, habs'⟩
  · rw [absorbAll_cons S (exec_absorb8_fin d hp), absorbAll_raise hp]
    rfl

/-- Settles O36, by induction over the bytes: each word decodes to the command it encodes. -/
theorem pseudoAbsorbIsAbsorb : Obligations.PseudoAbsorbIsAbsorb := by
  unfold Obligations.PseudoAbsorbIsAbsorb
  intro S
  induction S with
  | nil => exact fun s => rfl
  | cons d S ih =>
    intro s
    have hwords : (absorbCommands (d :: S)).map encode =
        encode (.absorb8 d) :: (absorbCommands S).map encode := rfl
    rw [hwords, runWords, absorbAll, execWord_encode]
    cases exec (.absorb8 d) s with
    | next t => exact ih t
    | fault r => rfl
    | refused r => rfl

/-- Settles O34: `NEW` starts from nothing, the bytes are absorbed in order, `FINALIZE` presents. -/
theorem pseudoSha256FromAnyState : Obligations.PseudoSha256FromAnyState := by
  unfold Obligations.PseudoSha256FromAnyState
  intro s M
  have hnew := exec_new s
  obtain ⟨herr, hcause, -⟩ := newFrame _ _ hnew
  obtain ⟨t, ht, habs, herr', hcause', -⟩ :=
    (absorbed_nil_of_afterNew (execNew_afterNew hnew)).absorbAll M
  obtain ⟨u, hu, hresponse, -⟩ := habs.finalize
  obtain ⟨-, -, herr'', hcause'', -⟩ := finalizeFrame _ _ hu
  have hwords : (sha256Commands M).map encode =
      encode .new :: ((absorbCommands M).map encode ++ [encode .finalize]) := by
    simp [sha256Commands]
  refine ⟨u, ?_, hresponse, herr''.trans (herr'.trans herr), hcause''.trans (hcause'.trans hcause)⟩
  rw [hwords, runWords_cons _ ((execWord_encode _ _).trans hnew),
    runWords_append _ ((pseudoAbsorbIsAbsorb M _).trans ht),
    runWords_cons _ ((execWord_encode _ _).trans hu), runWords]

/-- A reserved word absorbs nothing (R104). -/
theorem absorbed_raise {s : State} {M : List Byte} (c : FaultCode) (hM : s.Absorbed M) :
    (raise c s).Absorbed M := hM

/-- Words that are `ABSORB8` or reserved complete, and append the bytes they carry. -/
theorem State.Absorbed.runWords {s : State} {M : List Byte} (hM : s.Absorbed M) (cws : List CommandWord)
    (hcws : ∀ cw ∈ cws, decode cw ≠ .ok .new ∧ decode cw ≠ .ok .finalize) :
    ∃ t, runWords cws s = .next t ∧ t.Absorbed (M ++ messageOf cws) := by
  induction cws generalizing s M with
  | nil => exact ⟨s, rfl, by rwa [messageOf, List.append_nil]⟩
  | cons cw cws ih =>
    obtain ⟨⟨hnew, hfin⟩, hrest⟩ := List.forall_mem_cons.1 hcws
    cases hd : decode cw with
    | error r =>
      rw [runWords_cons _ (execWord_of_error s hd), messageOf, hd]
      exact ih (absorbed_raise _ hM) hrest
    | ok i =>
      cases i with
      | new => exact absurd hd hnew
      | finalize => exact absurd hd hfin
      | absorb8 d =>
        obtain ⟨u, hu, habs, -⟩ := hM.absorb8 d
        obtain ⟨t, ht, habs'⟩ := ih habs hrest
        rw [List.append_assoc, List.singleton_append] at habs'
        rw [runWords_cons _ ((execWord_of_ok s hd).trans hu), messageOf, hd]
        exact ⟨t, ht, habs'⟩

/-- Settles O33, by induction over the words, and then by `FINALIZE` on the message absorbed. -/
theorem lifetimeComputesSha256 : Obligations.LifetimeComputesSha256 := by
  unfold Obligations.LifetimeComputesSha256
  intro s cws hs hcws
  obtain ⟨t, ht, habs⟩ := (absorbed_nil_of_afterNew hs).runWords cws hcws
  obtain ⟨u, hu, hresponse, -⟩ := habs.finalize
  exact ⟨t, u, ht, (execWord_encode .finalize t).trans hu, hresponse⟩

end Sys2Proof.Machine
end

section
/-! SUPPORT. Control does not depend on data (spec 43_compression.md R97): what two commands of one opcode
leave alike, and the blocks a command folds into `H`, one lemma per command. The obligation follows. -/

namespace Sys2Proof.Machine

open Sys2Proof

/-- From `s` and `s'`, of equal control, two commands lead to `t` and `t'` with equal control, responses of one
kind, and an equal fault record and equal indices where these were equal before (R97). -/
def ControlAlike (s s' t t' : State) : Prop :=
  t.AgreeControl t' ∧
    (∀ c, t.response = some (.fault c) ↔ t'.response = some (.fault c)) ∧
    (t.response = some .ok ↔ t'.response = some .ok) ∧
    (s.err = s'.err → s.cause = s'.cause → t.err = t'.err ∧ t.cause = t'.cause) ∧
    (s.t = s'.t → t.t = t'.t) ∧ (s.j = s'.j → t.j = t'.j)

/-- Two responses with a digest are neither faults nor `OK`, whatever the digests are. -/
theorem digest_responses_alike (D D' : Digest) :
    (∀ c, some (Response.digest D) = some (.fault c) ↔ some (Response.digest D') = some (.fault c)) ∧
      (some (Response.digest D) = some .ok ↔ some (Response.digest D') = some .ok) := by
  simp

theorem ok_responses_alike {t t' : State} (ht : t.response = some .ok) (ht' : t'.response = some .ok) :
    (∀ c, t.response = some (.fault c) ↔ t'.response = some (.fault c)) ∧
      (t.response = some .ok ↔ t'.response = some .ok) := by
  rw [ht, ht']
  exact ⟨fun _ => Iff.rfl, Iff.rfl⟩

theorem execNew_alike (s s' : State) :
    ∃ t t', exec .new s = .next t ∧ exec .new s' = .next t' ∧ ControlAlike s s' t t' :=
  ⟨_, _, exec_new s, exec_new s', ⟨rfl, rfl⟩, fun _ => Iff.rfl, Iff.rfl, And.intro, id, id⟩

theorem execAbsorb8_alike {s s' : State} (d d' : Byte) (hag : s.AgreeControl s') (hlive : s.BufLive)
    (hlive' : s'.BufLive) :
    ∃ t t', exec (.absorb8 d) s = .next t ∧ exec (.absorb8 d') s' = .next t' ∧
      ControlAlike s s' t t' := by
  obtain ⟨hphase, hlen⟩ := hag
  have hfill : fill s = fill s' := fill_congr hlen
  have hcount : (putByte d s).len = (putByte d' s').len := by rw [putByte_len, putByte_len, hlen]
  cases hp : s.phase with
  | fin =>
    refine ⟨_, _, exec_absorb8_fin d hp, exec_absorb8_fin d' (hphase ▸ hp), ⟨hphase, hlen⟩,
      fun _ => Iff.rfl, Iff.rfl, fun herr hcause => ⟨rfl, ?_⟩, id, id⟩
    rw [raise_cause, raise_cause, herr, hcause]
  | acc =>
    by_cases hf : fill s = 63
    · obtain ⟨R, hR⟩ := exists_tail hlive
      obtain ⟨R', hR'⟩ := exists_tail hlive'
      obtain ⟨hfault, hok⟩ := ok_responses_alike (respond_response .ok _) (respond_response .ok _)
      refine ⟨_, _, exec_absorb8_block_of_tail d hp hf hR,
        exec_absorb8_block_of_tail d' (hphase ▸ hp) (hfill ▸ hf) hR', ⟨hphase, hcount⟩, hfault, hok,
        And.intro, fun _ => ?_, id⟩
      simp only [respond_t, forgetBuf_t, compressBlock_t]
    · exact ⟨_, _, exec_absorb8_store d hp hf, exec_absorb8_store d' (hphase ▸ hp) (hfill ▸ hf),
        ⟨hphase, hcount⟩, fun _ => Iff.rfl, Iff.rfl, And.intro, id, id⟩

theorem execFinalize_alike {s s' : State} (hag : s.AgreeControl s') (hlive : s.BufLive)
    (hlive' : s'.BufLive) :
    ∃ t t', exec .finalize s = .next t ∧ exec .finalize s' = .next t' ∧ ControlAlike s s' t t' := by
  obtain ⟨hphase, hlen⟩ := hag
  cases hp : s.phase with
  | fin =>
    obtain ⟨hfault, hok⟩ := digest_responses_alike (serialize s.h) (serialize s'.h)
    exact ⟨_, _, exec_finalize_fin hp, exec_finalize_fin (hphase ▸ hp), ⟨hphase, hlen⟩, hfault, hok,
      And.intro, id, id⟩
  | acc =>
    obtain ⟨R, hR⟩ := exists_tail hlive
    obtain ⟨R', hR'⟩ := exists_tail hlive'
    obtain ⟨hfault, hok⟩ :=
      digest_responses_alike (serialize (finalChain R s)) (serialize (finalChain R' s'))
    exact ⟨_, _, exec_finalize_of_tail hp hR, exec_finalize_of_tail (hphase ▸ hp) hR', ⟨rfl, hlen⟩,
      hfault, hok, And.intro, fun _ => rfl, fun _ => rfl⟩

/-- Commands of one opcode differ in the operand of `ABSORB8` at most. -/
theorem exec_alike {s s' : State} {i i' : Instr} (hag : s.AgreeControl s') (hlive : s.BufLive)
    (hlive' : s'.BufLive) (hop : (toFields i).op = (toFields i').op) :
    ∃ t t', exec i s = .next t ∧ exec i' s' = .next t' ∧ ControlAlike s s' t t' := by
  cases i with
  | new =>
    cases i' with
    | new => exact execNew_alike s s'
    | absorb8 d' => cases hop
    | finalize => cases hop
  | absorb8 d =>
    cases i' with
    | new => cases hop
    | absorb8 d' => exact execAbsorb8_alike d d' hag hlive hlive'
    | finalize => cases hop
  | finalize =>
    cases i' with
    | new => cases hop
    | absorb8 d' => cases hop
    | finalize => exact execFinalize_alike hag hlive hlive'

/-- The chain of the first `n` blocks folds them one by one (R95). -/
theorem chainBlocks_eq_foldl (X : Chain) (P : List Byte) :
    ∀ n : Nat, chainBlocks X P n = ((List.range n).map (blockAt P)).foldl compress X
  | 0 => rfl
  | n + 1 => by
    rw [chainBlocks, chainBlocks_eq_foldl X P n, List.range_succ, List.map_append, List.foldl_append]
    rfl

theorem blockCount_new (p : Phase) (len : BitVec 64) : blockCount (toFields .new).op p len = 0 := by
  cases p <;> rfl

theorem blockCount_finalize_acc (s : State) :
    blockCount (toFields .finalize).op .acc s.len = padTotal (fill s) / 64 := by
  have hcount : blockCount (toFields .finalize).op .acc s.len = if fill s ≤ 55 then 1 else 2 := rfl
  rw [hcount, padTotal_of_lt (fill_lt s)]
  split <;> rfl

/-- `ABSORB8` folds no block into `H`, or the one it completes. -/
theorem execAbsorb8_blocks {s t : State} {d : Byte} (he : exec (.absorb8 d) s = .next t) :
    ∃ Bs : List Block, Bs.length = blockCount (toFields (.absorb8 d)).op s.phase s.len ∧
      t.h = Bs.foldl compress s.h := by
  obtain ⟨hp, rfl⟩ | ⟨hp, hf, rfl⟩ | ⟨hp, hf, B, -, rfl⟩ := execAbsorb8_cases he
  · rw [hp]
    exact ⟨[], rfl, rfl⟩
  · rw [hp]
    exact ⟨[], (if_neg hf).symm, rfl⟩
  · rw [hp]
    exact ⟨[B], (if_pos hf).symm, compressBlock_h_eq_compress B _⟩

/-- `FINALIZE` folds no block into `H`, or those of the padded tail. -/
theorem execFinalize_blocks {s t : State} (he : exec .finalize s = .next t) :
    ∃ Bs : List Block, Bs.length = blockCount (toFields .finalize).op s.phase s.len ∧
      t.h = Bs.foldl compress s.h := by
  cases hp : s.phase with
  | fin =>
    cases (exec_finalize_fin hp).symm.trans he
    exact ⟨[], rfl, rfl⟩
  | acc =>
    obtain ⟨R, hR, rfl⟩ := execFinalize_acc_cases he hp
    refine ⟨(List.range (padTotal R.length / 64)).map (blockAt (padBuild R s.len.toNat)), ?_,
      chainBlocks_eq_foldl _ _ _⟩
    rw [List.length_map, List.length_range, blockCount_finalize_acc, hR.1]

/-- Settles O29: the commands branch on opcode, `PHASE` and `LEN` only, and each branch folds a fixed number
of blocks. -/
theorem controlIgnoresData : Obligations.ControlIgnoresData := by
  unfold Obligations.ControlIgnoresData
  refine ⟨fun s s' i i' hag hlive hlive' hop => exec_alike hag hlive hlive' hop, fun s t i he => ?_⟩
  cases i with
  | new =>
    cases (exec_new s).symm.trans he
    exact ⟨[], (blockCount_new _ _).symm, rfl⟩
  | absorb8 d => exact execAbsorb8_blocks he
  | finalize => exact execFinalize_blocks he

end Sys2Proof.Machine
end

section
/-! SUPPORT. Several instances (spec 20_memory.md R47, 60_exceptions.md R115): a step of one is a step on its
own state, put back at its place. The obligation follows. -/

namespace Sys2Proof.Machine

open Sys2Proof

theorem instances_step_eq_next_iff {n : Nat} {i : Fin n} {sys sys' : Instances n} :
    Instances.step i sys = .next sys' ↔ ∃ t, step sys[i] = .next t ∧ sys' = sys.set i.val t := by
  unfold Instances.step
  cases step sys[i] with
  | next t => simp [eq_comm]
  | fault r => simp
  | refused r => simp

theorem instances_set_other {n : Nat} {i k : Fin n} (sys : Instances n) (t : State) (hne : k ≠ i) :
    (sys.set i.val t)[k] = sys[k] :=
  Vector.getElem_set_ne _ _ fun hval => hne (Fin.ext hval.symm)

/-- Settles O30: the second step reads a state that the first has not touched. -/
theorem instancesAreIndependent : Obligations.InstancesAreIndependent := by
  unfold Obligations.InstancesAreIndependent
  intro n sys sys1 i hi
  obtain ⟨t, ht, rfl⟩ := instances_step_eq_next_iff.1 hi
  refine ⟨?_, fun k hne => instances_set_other sys t hne, fun k sys2 hne hk => ?_⟩
  · rw [ht]
    exact congrArg _ (Vector.getElem_set_self _).symm
  · obtain ⟨u, hu, rfl⟩ := instances_step_eq_next_iff.1 hk
    refine ⟨(sys.set i.val t).set k.val u, instances_step_eq_next_iff.2 ⟨u, ?_, rfl⟩,
      instances_step_eq_next_iff.2 ⟨t, ?_, ?_⟩⟩
    · rw [instances_set_other sys t hne, hu]
    · rw [instances_set_other sys u hne.symm, ht]
    · exact Vector.set_comm _ _ fun hval => hne (Fin.ext hval.symm)

end Sys2Proof.Machine
end

section
/-! SUPPORT. The constant tables as fractions of roots (spec 10_state.md R19, R20, log 14): with the integer
part of the root put above its 32 bits, an entry is the scaled root, rounded down. The obligation follows. -/

namespace Sys2Proof.Machine

open Sys2Proof

/-- The first 64 primes. -/
def firstPrimes : List Nat :=
  [2, 3, 5, 7, 11, 13, 17, 19, 23, 29, 31, 37, 41, 43, 47, 53, 59, 61, 67, 71, 73, 79, 83, 89, 97, 101, 103,
   107, 109, 113, 127, 131, 137, 139, 149, 151, 157, 163, 167, 173, 179, 181, 191, 193, 197, 199, 211, 223,
   227, 229, 233, 239, 241, 251, 257, 263, 269, 271, 277, 281, 283, 293, 307, 311]

/-- Below 18 squared the trial division stops before 18. -/
theorem prime_iff_trial_division {p : Nat} (hp : p < 18 * 18) :
    Nat.Prime p ↔ 2 ≤ p ∧ ∀ m : Nat, m < 18 → ¬ (2 ≤ m ∧ m * m ≤ p ∧ m ∣ p) := by
  rw [Nat.prime_def_le_sqrt]
  constructor
  · rintro ⟨htwo, hnone⟩
    exact ⟨htwo, fun m _ ⟨hm, hsq, hdvd⟩ => hnone m hm (Nat.le_sqrt.2 hsq) hdvd⟩
  · rintro ⟨htwo, hnone⟩
    refine ⟨htwo, fun m hm hroot hdvd => ?_⟩
    have hsq : m * m ≤ p := Nat.le_sqrt.1 hroot
    exact hnone m (Nat.mul_self_lt_mul_self_iff.1 (hsq.trans_lt hp)) ⟨hm, hsq, hdvd⟩

theorem primes_below_312 : (List.range 312).filter (fun p => decide (Nat.Prime p)) = firstPrimes := by
  have htrial : ∀ p ∈ List.range 312, decide (Nat.Prime p) =
      decide (2 ≤ p ∧ ∀ m : Nat, m < 18 → ¬ (2 ≤ m ∧ m * m ≤ p ∧ m ∣ p)) := fun p hp =>
    decide_eq_decide.2 (prime_iff_trial_division ((List.mem_range.1 hp).trans (by decide)))
  rw [List.filter_congr htrial]
  decide +kernel

/-- The integer part of the `n`-th root of a number whose root is below 8. -/
def rootFloor (n p : Nat) : Nat := Nat.findGreatest (fun a => a ^ n ≤ p) 7

/-- The `n`-th root of `p` scaled by 2^32, if `frac` is the first 32 bits of its fractional part. -/
def scaledRoot (n p : Nat) (frac : Word) : Nat := rootFloor n p * 2 ^ 32 + frac.toNat

theorem scaledRoot_mod (n p : Nat) (frac : Word) : frac.toNat = scaledRoot n p frac % 2 ^ 32 := by
  rw [scaledRoot, Nat.mul_add_mod_self_right, Nat.mod_eq_of_lt frac.isLt]

/-- The entries of `K`, scaled up, enclose the cube roots. -/
theorem k_encloses_cube_roots : ∀ t : Fin 64,
    scaledRoot 3 (firstPrimes.getD t.val 0) Config.k[t] ^ 3 ≤ firstPrimes.getD t.val 0 * 2 ^ 96 ∧
      firstPrimes.getD t.val 0 * 2 ^ 96 <
        (scaledRoot 3 (firstPrimes.getD t.val 0) Config.k[t] + 1) ^ 3 := by
  decide +kernel

/-- The entries of `IV`, scaled up, enclose the square roots. -/
theorem iv_encloses_square_roots : ∀ i : Fin 8,
    scaledRoot 2 (firstPrimes.getD i.val 0) Config.iv[i] ^ 2 ≤ firstPrimes.getD i.val 0 * 2 ^ 64 ∧
      firstPrimes.getD i.val 0 * 2 ^ 64 <
        (scaledRoot 2 (firstPrimes.getD i.val 0) Config.iv[i] + 1) ^ 2 := by
  decide +kernel

/-- Settles O41: the witness for each entry is the root's integer part above the entry itself. -/
theorem constantTablesAreRootsOfPrimes : Obligations.ConstantTablesAreRootsOfPrimes := by
  unfold Obligations.ConstantTablesAreRootsOfPrimes
  rw [primes_below_312]
  refine ⟨rfl, fun t => ?_, fun i => ?_⟩
  · obtain ⟨hle, hlt⟩ := k_encloses_cube_roots t
    exact ⟨_, hle, hlt, scaledRoot_mod _ _ _⟩
  · obtain ⟨hle, hlt⟩ := iv_encloses_square_roots i
    exact ⟨_, hle, hlt, scaledRoot_mod _ _ _⟩

end Sys2Proof.Machine
end
